-- ==== Sys2Proof/Word.lean ====
section
/-!
DEFINITION. The plain value types of the engine: program indices, token payloads, register values and text.
The spec fixes no width for any of them (`spec/00_scope.md` R4): payloads are naturals bounded by `TOKW`, register
values are integers bounded by `XLEN`, and the bounds are the open parameters of `Sys2Proof/Config.lean`.
-/

namespace Sys2Proof

/-- The payload word `P` of an instruction token (R4, R46): opaque to the engine, of any width. -/
abbrev Tok := Nat

/-- A text, as its sequence of characters (R10). -/
abbrev Text := List Char

/-- A register value: a signed integer (R20); `XLEN` bounds it (R5, decision D7). -/
abbrev Value := Int

end Sys2Proof
end

