-- ==== Sys2Proof/Config.lean ====
section
/-!
DEFINITION. What an implementation fixes and the spec leaves open (`spec/00_scope.md` R4), and the free values.
No constant declared `opaque` here has a body, so that nothing can be proved of its value.
-/

namespace Sys2Proof

/-- The open parameters of R4 that a step or a report depends on. One record is fixed for a machine; a state carries
its own (`Machine.State.params`), so that a statement about every state holds for every choice of them.
`render` is given as a table from payload to text: `texts` lists it for the payloads in use. -/
structure Params where
  /-- `TOKW`: payload width of a token word. -/
  tokw : Nat
  /-- `PCW`: width of `PC`, `COUNT` and `prog_len`. -/
  pcw : Nat
  /-- `XLEN`: width of a register value. -/
  xlen : Nat
  /-- `BRANCH_MARKER`: the reserved branch marker. -/
  branchMarker : Text
  /-- `EMPTY_MARK`: the text shown for an empty slot. -/
  emptyMark : Text
  /-- The rendering of the tokens: payload and text. -/
  texts : List (Tok × Text)
  deriving DecidableEq, Repr, Inhabited

namespace Config

/-- The chip's own choice of the open parameters, before R4's bounds are imposed. Assumption 2. -/
opaque rawParams : Params

/-- The chip's parameters: any choice with `TOKW ≥ 1` and `XLEN ≥ 1` (R4). -/
def params : Params :=
  { rawParams with tokw := rawParams.tokw + 1, xlen := rawParams.xlen + 1 }

/-- `RF_INIT` (R4, R121, decision D8): the draw for register `i` at the reset edge numbered `edge`. A free value, read
as `XLEN` bits by `Machine.resetRegs`. Assumption 3. -/
opaque rfInit (edge i : Nat) : Int

/-- What `rf_rdata` shows in the cycle numbered `edge` when `rf_raddr` names no register (R85: any value that cycle).
A free value, read as `XLEN` bits by `Machine.undefinedRdata`. Assumption 4. -/
opaque freeRdata (edge : Nat) : Int

/-- `HEADER_FMT` (R4, R95): the report's header line for a value of `PC`. Assumption 2. -/
opaque headerLine (pc : Nat) : Text

end Config

end Sys2Proof
end

