-- ==== Sys2Proof/Machine/Bits.lean ====
section
/-!
DEFINITION. Bit-field, sign and text helpers: the fields of a word `{flag, P}`, the range of a signed `XLEN`-bit value,
and the substring test of the branch classification.
-/

namespace Sys2Proof.Machine

/-- The word `{flag, P}` of `tokw + 1` bits (R5, R47, R48): `flag` is bit `tokw`, `P` the bits below it, `p` a payload of
`tokw` bits. -/
def flaggedWord (tokw : Nat) (flag : Bool) (p : Nat) : Nat :=
  if flag then 2 ^ tokw + p else p

/-- Bit `tokw` of a word: `BR` of a classified token, `V` of a slot word. -/
def flagOf (tokw w : Nat) : Bool := w.testBit tokw

/-- Bits `tokw-1:0` of a word: the payload `P`. -/
def payloadOf (tokw w : Nat) : Nat := w % 2 ^ tokw

/-- `v` is representable in `xlen` signed bits, two's complement (R5). -/
def fitsSigned (xlen : Nat) (v : Int) : Bool :=
  decide (-(2 ^ (xlen - 1) : Int) ≤ v ∧ v < (2 ^ (xlen - 1) : Int))

/-- The low `xlen` bits of `v`, read as a signed two's-complement value (R5). -/
def signedOfBits (xlen : Nat) (v : Int) : Int := Int.bmod v (2 ^ xlen)

/-- `contains(s, m)` of R10: `m` occurs in `s` as a contiguous run, characters compared exactly. -/
def containsText : Text → Text → Bool
  | [], m => m.isEmpty
  | c :: s, m => m.isPrefixOf (c :: s) || containsText s m

/-- A register index that names a register: 0..31 (R31, R84, R86). -/
def indexInRange (index : Int) : Bool := decide (0 ≤ index ∧ index ≤ 31)

end Sys2Proof.Machine
end

