-- ==== Sys2Proof/Machine/Classify.lean ====
section
/-!
DEFINITION. The text of a token and the branch classification (`spec/30_encoding.md`, section 2).
-/

namespace Sys2Proof.Machine

/-- `render(t)` (R10): the text the parameters give the token; a payload they do not list has the empty text. -/
def render (ps : Params) (t : Tok) : Text := (ps.texts.lookup t).getD []

/-- `isBranch(t)` (R49): the branch marker occurs in the rendered form, case-sensitively. -/
def isBranch (ps : Params) (t : Tok) : Bool := containsText (render ps t) ps.branchMarker

end Sys2Proof.Machine
end

