-- ==== Sys2Proof/Syntax.lean ====
section
/-!
DEFINITION. The instructions and port operations of `spec/opcode_table.json`, and the data an edge presents at the ports.
-/

namespace Sys2Proof

/-- One constructor per row of `spec/opcode_table.json` (R56, R57). -/
inductive Instr where
  /-- BRANCH_TOKEN: the classified token with `BR = 1` and payload `p` (R69). -/
  | branchToken (p : Tok)
  /-- NONBRANCH_TOKEN: the classified token with `BR = 0` and payload `p` (R70). -/
  | nonbranchToken (p : Tok)
  /-- RESET: `rst = 1` at a rising edge (R121). -/
  | reset
  /-- CYCLE: an engine cycle at an edge with `rst = 0` (R58, R68). -/
  | cycle
  /-- RF_READ: a performed read, `rf_re = 1` and `rf_raddr = index` (R84). -/
  | rfRead (index : Int)
  /-- RF_WRITE: a performed write, `rf_we = 1`, `rf_waddr = index` and `rf_wdata = value` (R86). -/
  | rfWrite (index : Int) (value : Value)
  deriving DecidableEq, Repr

/-- A classified token `{BR, P}`, the output of the engine's decoder (R48). -/
structure Classified where
  br : Bool
  p : Tok
  deriving DecidableEq, Repr

/-- A stage slot's value (R7): empty, or full with one token. -/
inductive Slot where
  | empty
  | full (t : Tok)
  deriving DecidableEq, Repr

/-- What the host drives on the input ports in one cycle, sampled at its closing edge (R29, R101). `load` is the
program presented on `imem_tok` and `prog_len` while `rst = 1`; `none` keeps the one presented before. -/
structure EdgeInput where
  rst : Bool := false
  rfRe : Bool := false
  rfRaddr : Int := 0
  rfWe : Bool := false
  rfWaddr : Int := 0
  rfWdata : Value := 0
  load : Option (List Tok) := none
  deriving DecidableEq, Repr

/-- An idle host: reset released, no strobe, no program change. -/
def EdgeInput.idle : EdgeInput := {}

/-- A host that holds reset and does nothing else, as it must until a program is loaded (R101, R102, R125). -/
def EdgeInput.held : EdgeInput := { rst := true }

end Sys2Proof
end

