-- ==== Sys2Proof/WellFormed.lean ====
section
/-!
DEFINITION. Which instructions, programs and port inputs the host can present at all (R4, R17, R46, R49, R101).
-/

namespace Sys2Proof

/-- An instruction that can occur: a token fits `TOKW` bits and its row is the one its computed `BR` selects (R46, R48,
R49); a written value fits `XLEN` signed bits (R86). A register index may be any integer (R31). -/
def wellFormed (ps : Params) : Instr → Bool
  | .branchToken p => decide (p < 2 ^ ps.tokw) && Machine.isBranch ps p
  | .nonbranchToken p => decide (p < 2 ^ ps.tokw) && !Machine.isBranch ps p
  | .reset => true
  | .cycle => true
  | .rfRead _ => true
  | .rfWrite _ v => Machine.fitsSigned ps.xlen v

/-- `N ≤ 2^PCW − 1` (R17). -/
def programFits (ps : Params) (prog : List Tok) : Bool := decide (prog.length ≤ 2 ^ ps.pcw - 1)

/-- Every token of the program is a `TOKW`-bit word (R46). -/
def tokensFit (ps : Params) (prog : List Tok) : Bool := prog.all fun t => decide (t < 2 ^ ps.tokw)

/-- A value presented on `rf_wdata` with the write strobe is an `XLEN`-bit signed value (R29, R86). -/
def writeDataFits (ps : Params) (e : EdgeInput) : Bool :=
  e.rst || !e.rfWe || Machine.fitsSigned ps.xlen e.rfWdata

/-- The host presents a program only while it holds `rst = 1` (R101, R125). -/
def loadAllowed (e : EdgeInput) : Bool := e.rst || e.load.isNone

/-- The host releases reset only after a load has succeeded (R102, R125). -/
def releaseAllowed (loaded : Bool) (e : EdgeInput) : Bool := loaded || e.rst

/-- The parameters' own bounds (R4). -/
def paramsOk (ps : Params) : Bool := decide (1 ≤ ps.tokw) && decide (1 ≤ ps.xlen)

end Sys2Proof
end

