-- ==== Sys2Proof/Decode.lean ====
section
/-!
DEFINITION. Decoding and encoding: a fetched token to its classified word and row (R48, R56), the values at the ports to the
operations they select (R57, `spec/opcode_table.json`), and the slot word of a hardware realisation (R47).
-/

namespace Sys2Proof

/-- Why a word is rejected. The engine itself has no illegal encoding (R52); only a word with bits above its format is
(DESIGN CHOICE, Assumption 21). -/
inductive DecodeError where
  /-- A classified token word has a bit above bit `TOKW` (R48). -/
  | wordTooWide
  deriving DecidableEq, Repr

/-- The engine's decode of a fetched token: `{BR, P}` with `BR = isBranch(P)` computed (R48, R49). -/
def classify (ps : Params) (t : Tok) : Classified := ⟨Machine.isBranch ps t, t⟩

/-- The row a classified token selects (R56). -/
def Classified.toInstr (c : Classified) : Instr :=
  if c.br then .branchToken c.p else .nonbranchToken c.p

/-- The instruction the engine decodes from a fetched token. -/
def decodeToken (ps : Params) (t : Tok) : Instr := (classify ps t).toInstr

/-- The word `{BR, P}` of a classified token (R48). -/
def Classified.toWord (tokw : Nat) (c : Classified) : Nat := Machine.flaggedWord tokw c.br c.p

/-- A word of `tokw + 1` bits read as a classified token (R48). -/
def Classified.ofWord (tokw w : Nat) : Except DecodeError Classified :=
  if w < 2 ^ (tokw + 1) then .ok ⟨Machine.flagOf tokw w, Machine.payloadOf tokw w⟩
  else .error .wordTooWide

/-- The row that a classified token word selects (R56), rejecting a word wider than the format. -/
def decodeClassified (tokw w : Nat) : Except DecodeError Instr :=
  (Classified.ofWord tokw w).map Classified.toInstr

/-- The operations that the port values of one edge select (`spec/opcode_table.json`, rows of format PORT), given
whether the block is faulted and running before the edge. Listed in an order in which running them one after another
has R89's and R112's outcome: the cycle first, and of the two register-file operations an out-of-range write first,
otherwise the read first. -/
def decodePorts (faulted running : Bool) (e : EdgeInput) : List Instr :=
  if e.rst then [.reset]
  else if faulted then []
  else
    let cyc := if running then [Instr.cycle] else []
    let rd := if e.rfRe then [Instr.rfRead e.rfRaddr] else []
    let wr := if e.rfWe then [Instr.rfWrite e.rfWaddr e.rfWdata] else []
    cyc ++ (if Machine.indexInRange e.rfWaddr then rd ++ wr else wr ++ rd)

/-- An encoded row: a classified token word, or the port values that select an operation. -/
inductive Encoded where
  | classified (w : Nat)
  | ports (e : EdgeInput)
  deriving DecidableEq, Repr

/-- The operations an encoded row selects at an edge before which the block is unfaulted, `running` as given. -/
def decode (tokw : Nat) (running : Bool) : Encoded → Except DecodeError (List Instr)
  | .classified w => (decodeClassified tokw w).map fun i => [i]
  | .ports e => .ok (decodePorts false running e)

/-- The encoding of an instruction: the word of R48 for a token, the selecting port values for a port operation. -/
def encode (tokw : Nat) : Instr → Encoded
  | .branchToken p => .classified (Classified.toWord tokw ⟨true, p⟩)
  | .nonbranchToken p => .classified (Classified.toWord tokw ⟨false, p⟩)
  | .reset => .ports { rst := true }
  | .cycle => .ports EdgeInput.idle
  | .rfRead index => .ports { rfRe := true, rfRaddr := index }
  | .rfWrite index value => .ports { rfWe := true, rfWaddr := index, rfWdata := value }

/-- The slot word `{V, P}` (R47); `dontCare` is what the payload bits hold when the slot is empty. -/
def Slot.toWord (tokw dontCare : Nat) : Slot → Nat
  | .empty => Machine.flaggedWord tokw false (Machine.payloadOf tokw dontCare)
  | .full t => Machine.flaggedWord tokw true t

/-- The slot a slot word stands for: `V = 0` is empty whatever `P` holds (R47). The format has `TOKW + 1` bits; what a
wider word would be is left open, and its bits above bit `TOKW` are dropped (DESIGN CHOICE, Assumption 22). -/
def Slot.ofWord (tokw w : Nat) : Slot :=
  if Machine.flagOf tokw w then .full (Machine.payloadOf tokw w) else .empty

/-- The instruction read from a table word of `nbits` bits. The table's rows with a word are the classified tokens, of
`TOKW + 1` bits, so `TOKW` is taken as `nbits - 1`; the PORT rows have no word (Assumption 11). -/
def decodeTableWord (nbits w : Nat) : Option Instr :=
  match nbits with
  | 0 => none
  | tokw + 1 => (decodeClassified tokw w).toOption

end Sys2Proof
end

