-- ==== Sys2Proof/Machine/Flags.lean ====
section
/-!
DEFINITION. The control unit: the branch-resolution policy that computes the block's only flag `BT`, and the redirect
function (`spec/41_control_unit.md`).
-/

namespace Sys2Proof.Machine

/-- The condition the engine passes to the control unit: the constant false (R64). -/
def conditionSignal : Bool := false

/-- The decision that `resolveBranch(cond)` records in `BT` and returns: not taken, whatever the signal (R77). -/
def resolveBranch (_cond : Bool) : Bool := false

/-- The next program counter on a taken decision (R79). -/
def redirect (pc : Nat) : Nat := pc + 1

end Sys2Proof.Machine
end

