-- ==== Sys2Proof/Machine/FreeValues.lean ====
section
/-!
DEFINITION. The values the spec leaves open, drawn from the constants of `Sys2Proof/Config.lean` and kept to `XLEN` signed
bits (R5).
-/

namespace Sys2Proof.Machine

/-- The register file after the reset edge numbered `edge` (R121): `x0` zero, every other register `RF_INIT[i]`, a
free value of `XLEN` bits. -/
def resetRegs (ps : Params) (edge : Nat) : Vector Value 32 :=
  Vector.ofFn fun i : Fin 32 => if i = 0 then 0 else signedOfBits ps.xlen (Config.rfInit edge i)

/-- What `rf_rdata` shows when `rf_raddr` is out of range in the cycle numbered `edge` (R85): a free value. -/
def undefinedRdata (ps : Params) (edge : Nat) : Value := signedOfBits ps.xlen (Config.freeRdata edge)

end Sys2Proof.Machine
end

