-- ==== Sys2Proof/Machine/State.lean ====
section
/-!
DEFINITION. The state of the engine as plain data: the six elements of `spec/10_state.md` section 1, and after them the
model's own fields, which hold what the host supplies and what the spec leaves open. Also the reasons a step can stop.
-/

namespace Sys2Proof.Machine

/-- A stop of the machine. There is none: the block's only faults are values of its `FAULT` register (R104, R105),
which are states of the machine, not the end of its steps. -/
inductive Fault
  deriving DecidableEq, Repr

/-- What the model gives no meaning. -/
inductive Refusal where
  /-- An arm of `exec` without a meaning. No arm raises it. Safe. -/
  | notModelled (mnemonic : String)
  /-- `step`, when the program presented has `N > 2^PCW − 1` (R17, I13: refused). Safe. -/
  | programTooLong
  /-- `step`, when a token of the program presented is no `TOKW`-bit word, which `imem_tok` cannot carry (R46). Safe. -/
  | tokenTooWide
  /-- `step`, when a written value is no signed `XLEN`-bit value, which `rf_wdata` cannot carry (R29, R86). Safe. -/
  | valueTooWide
  /-- `step`, when the host releases reset although no program has been loaded (R102, I15: refused). Safe. -/
  | resetReleasedUnloaded
  /-- `step`, when the host presents a program while `rst = 0` (R43, R101, I14: refused). Safe. -/
  | programChangedInRun
  deriving DecidableEq, Repr

/-- The cause register's values (R23, R105). Code 3 is never produced (R26, I9) and is no value here. -/
inductive FaultCause where
  | none
  | regReadIndex
  | regWriteIndex
  deriving DecidableEq, Repr

/-- The five stage slots under their fixed names (R18). -/
structure Stages where
  IF : Slot
  ID : Slot
  EX : Slot
  MEM : Slot
  WB : Slot
  deriving DecidableEq, Repr

/-- The names of the stages, `STAGE[0]` to `STAGE[4]` in this order (R18). -/
inductive StageName where
  | IF
  | ID
  | EX
  | MEM
  | WB
  deriving DecidableEq, Repr

/-- All stages empty, their value after reset (R18). -/
def Stages.empty : Stages := ⟨.empty, .empty, .empty, .empty, .empty⟩

/-- The machine. -/
structure State where
  /-- `PC`: the index of the next instruction to fetch (R15). -/
  pc : Nat
  /-- `COUNT`: the executed-instruction counter (R16). -/
  count : Nat
  /-- `STAGE[0..4]` (R18). -/
  stages : Stages
  /-- `RF[0..31]` (R20). Read and written through `readReg` and `writeReg` only, which hard-wire `x0` (R21). -/
  regs : Vector Value 32
  /-- `BT`: the last resolved branch decision (R22). -/
  bt : Bool
  /-- `FAULT` (R23). -/
  fault : FaultCause
  /-- MODEL's field: the open parameters of R4, constant. -/
  params : Params
  /-- MODEL's field: the program `PROG` the host presents on `imem_tok`, its length being `prog_len` (R28, R29). -/
  prog : List Tok
  /-- MODEL's field: the host has loaded a program, the empty one included (R102, R124). -/
  loaded : Bool
  /-- MODEL's field: what the host drives on the input ports, the current cycle's first; when the list is empty the
  host is idle, or holds reset if no program is loaded (R29, R101, R102). -/
  inputs : List EdgeInput
  /-- MODEL's field: the number of clock edges so far, which indexes the free values. -/
  edges : Nat
  deriving DecidableEq, Repr

/-- The machine right after a reset edge (R121, R122), that edge being the first: no program loaded, a host
that holds reset until one is. -/
def State.reset : State where
  pc := 0
  count := 0
  stages := Stages.empty
  regs := resetRegs Config.params 0
  bt := false
  fault := .none
  params := Config.params
  prog := []
  loaded := false
  inputs := []
  edges := 1

end Sys2Proof.Machine
end

