-- ==== Sys2Proof/Machine/Operands.lean ====
section
/-!
DEFINITION. The register operands: the index check, the register read with `x0` hard-wired to zero, and what the read port
shows (`spec/42_register_file.md`).
-/

namespace Sys2Proof.Machine

/-- The register an index names, if it is in 0..31 (R84, R86). -/
def regOfIndex (index : Int) : Option (Fin 32) :=
  if h : 0 ≤ index ∧ index ≤ 31 then some ⟨index.toNat, by omega⟩ else none

/-- Register `i` as read: `x0` is zero whatever is stored (R21, R84). -/
def State.readReg (s : State) (i : Fin 32) : Value := if i = 0 then 0 else s.regs[i]

/-- What the read port shows for `rf_raddr = index` (R83, R84): the register, or a free value if there is none
(R85). A function of the state; nothing is written (R20). -/
def State.portRead (s : State) (index : Int) : Value :=
  match regOfIndex index with
  | some i => s.readReg i
  | none => undefinedRdata s.params s.edges

end Sys2Proof.Machine
end

