-- ==== Sys2Proof/Machine/Ops.lean ====
section
/-!
DEFINITION. The named operations over the state: status, fetch, the stage slots, the engine cycle, the register write,
recording a fault and the reset that alone leaves it.
-/

namespace Sys2Proof.Machine

/-! ### Updates -/

/-- Writes what an engine cycle writes. -/
def State.setEngine (s : State) (pc count : Nat) (stages : Stages) (bt : Bool) : State :=
  { s with pc := pc, count := count, stages := stages, bt := bt }

/-- Writes the register file. -/
def State.setRegs (s : State) (regs : Vector Value 32) : State := { s with regs := regs }

/-- Writes `FAULT`. -/
def State.setFault (s : State) (cause : FaultCause) : State := { s with fault := cause }

/-- The host presents a program, its load having succeeded. -/
def State.loadProgram (s : State) (prog : List Tok) : State := { s with prog := prog, loaded := true }

/-- The edge is over: its inputs are gone and the edges' number grows. -/
def State.finishEdge (s : State) : State := { s with inputs := s.inputs.tail, edges := s.edges + 1 }

/-! ### Status -/

/-- `running ≡ PC < N` (R24). -/
def State.running (s : State) : Bool := decide (s.pc < s.prog.length)

/-- `halted ≡ PC ≥ N` (R24). -/
def State.halted (s : State) : Bool := decide (s.prog.length ≤ s.pc)

/-- `FAULT ≠ NONE` (R23, R107). -/
def State.faulted (s : State) : Bool := decide (s.fault ≠ .none)

/-- The cycle enable of R58 at an edge with `rst = 0`. -/
def State.cycleEnabled (s : State) : Bool := !s.faulted && s.running

/-! ### Fetch -/

/-- The fetch port: the token at an index of the program, none outside `0..N−1` (R8, R33, R36). -/
def State.fetch (s : State) (i : Nat) : Option Tok := s.prog[i]?

/-! ### Stage slots -/

/-- `STAGE[j]`. -/
def Stages.get (st : Stages) : StageName → Slot
  | .IF => st.IF
  | .ID => st.ID
  | .EX => st.EX
  | .MEM => st.MEM
  | .WB => st.WB

/-- `process(token)` on slot `j`: its content becomes `slot`, nothing is checked (R92). -/
def Stages.process (st : Stages) (slot : Slot) : StageName → Stages
  | .IF => { st with IF := slot }
  | .ID => { st with ID := slot }
  | .EX => { st with EX := slot }
  | .MEM => { st with MEM := slot }
  | .WB => { st with WB := slot }

/-- One cycle's movement: every slot's old content one stage toward WB, the old WB dropped, the fetched slot into IF
(R59, R61, R76). -/
def Stages.shift (st : Stages) (fetched : Slot) : Stages :=
  { IF := fetched, ID := st.IF, EX := st.ID, MEM := st.EX, WB := st.MEM }

/-! ### The engine cycle -/

/-- The cycle of R68 with the fetched token `tok` of class `br`: shift and fetch (R59, R61), branch check (R63), PC
update from the decision just resolved (R65), count (R67). Every right-hand side reads the old state (R6). -/
def State.engineCycle (s : State) (br : Bool) (tok : Tok) : State :=
  let btNew := if br then resolveBranch conditionSignal else s.bt
  let pcNext := if br && btNew then redirect s.pc else s.pc + 1
  s.setEngine pcNext (s.count + 1) (s.stages.shift (.full tok)) btNew

/-! ### The register write -/

/-- Stores a register; a write to `x0` is silently ignored (R21, R86). -/
def State.writeReg (s : State) (i : Fin 32) (v : Value) : State :=
  if i = 0 then s else s.setRegs (s.regs.set i v)

/-! ### Faults and reset -/

/-- `raise RegIndexError(cause)` (R9, R106): the cause is recorded if none is, and nothing else happens. There is no
trap entry: no state is saved and no handler exists (R109). -/
def State.raise (s : State) (cause : FaultCause) : State :=
  if s.faulted then s else s.setFault cause

/-- The reset event (R121), the only way out of the faulted state (R110). -/
def State.applyReset (s : State) : State :=
  ((s.setEngine 0 0 Stages.empty false).setRegs (resetRegs s.params s.edges)).setFault .none

end Sys2Proof.Machine
end

