-- ==== Sys2Proof/Machine/Tokens.lean ====
section
/-!
DEFINITION. The two token classes (`spec/40_pipeline_cycle.md` section 3). At an edge where R58 enables no cycle, no token
is fetched and the engine's state holds.
-/

namespace Sys2Proof.Machine

/-- BRANCH_TOKEN (R69): the cycle of R68 whose fetched token is branch-classified. -/
def execBranchToken (p : Tok) (s : State) : Host.Outcome State Fault Refusal :=
  .next (if s.cycleEnabled then s.engineCycle true p else s)

/-- NONBRANCH_TOKEN (R70): the cycle of R68 whose fetched token is not; the control unit is not referenced. -/
def execNonbranchToken (p : Tok) (s : State) : Host.Outcome State Fault Refusal :=
  .next (if s.cycleEnabled then s.engineCycle false p else s)

end Sys2Proof.Machine
end

