-- ==== Sys2Proof/Machine/Ports.lean ====
section
/-!
DEFINITION. The port operations: reset, the engine cycle, the register-file read and write.
-/

namespace Sys2Proof.Machine

/-- RESET (R121). -/
def execReset (s : State) : Host.Outcome State Fault Refusal := .next s.applyReset

/-- CYCLE (R58, R68): when enabled, fetches the token at `PC`, classifies it and runs its class; otherwise `PC`,
`COUNT`, `STAGE` and `BT` keep their values. -/
def execCycle (s : State) : Host.Outcome State Fault Refusal :=
  if s.cycleEnabled then
    match s.fetch s.pc with
    | some t =>
      let c := classify s.params t
      if c.br then execBranchToken c.p s else execNonbranchToken c.p s
    | none => .next s
  else .next s

/-- RF_READ (R84, R85): no state is written; an index outside 0..31 records `REG_READ_INDEX`. The value read is
`State.portRead`, on `rf_rdata`. While the block is faulted nothing is recorded (R91). -/
def execRfRead (index : Int) (s : State) : Host.Outcome State Fault Refusal :=
  .next <| match regOfIndex index with
    | some _ => s
    | none => s.raise .regReadIndex

/-- RF_WRITE (R86, R87): stores the value, ignores index 0, and records `REG_WRITE_INDEX` for an index outside 0..31.
While the block is faulted nothing is written (R91). -/
def execRfWrite (index : Int) (value : Value) (s : State) : Host.Outcome State Fault Refusal :=
  .next <| if s.faulted then s else
    match regOfIndex index with
    | some i => s.writeReg i value
    | none => s.raise .regWriteIndex

end Sys2Proof.Machine
end

