-- ==== Sys2Proof/Machine/Dispatch.lean ====
section
/-! DEFINITION. The meaning of each instruction: one arm per constructor of `Instr`, each one direct call. -/

namespace Sys2Proof.Machine

def exec (i : Instr) (s : State) : Host.Outcome State Fault Refusal :=
  match i with
  | .branchToken p => Sys2Proof.Machine.execBranchToken p s
  | .nonbranchToken p => Sys2Proof.Machine.execNonbranchToken p s
  | .reset => Sys2Proof.Machine.execReset s
  | .cycle => Sys2Proof.Machine.execCycle s
  | .rfRead index => Sys2Proof.Machine.execRfRead index s
  | .rfWrite index value => Sys2Proof.Machine.execRfWrite index value s

end Sys2Proof.Machine
end

