-- ==== Sys2Proof/Machine/Edge.lean ====
section
/-!
DEFINITION. One clock edge (R112): what the host presents, whether it may, and the selected operations run in turn.
-/

namespace Sys2Proof.Machine

/-- What the host drives in the current cycle; past the list's end it is idle, or holds reset if no program is loaded
(R102). -/
def State.input (s : State) : EdgeInput :=
  s.inputs.headD (if s.loaded then EdgeInput.idle else EdgeInput.held)

/-- The state with the program the host presents at this edge, if it presents one (R101, R125). -/
def State.presented (s : State) : State :=
  match s.input.load with
  | some prog => s.loadProgram prog
  | none => s

/-- Why the model gives the edge no meaning, if it does not (R17, R43, R101, R102). Assumption 9. -/
def State.edgeRefusal (s : State) : Option Refusal :=
  if !loadAllowed s.input then some .programChangedInRun
  else if !releaseAllowed s.loaded s.input then some .resetReleasedUnloaded
  else if !programFits s.params s.presented.prog then some .programTooLong
  else if !tokensFit s.params s.presented.prog then some .tokenTooWide
  else if !writeDataFits s.params s.input then some .valueTooWide
  else none

/-- The operations the current edge selects. -/
def State.selected (s : State) : List Instr := decodePorts s.faulted s.running s.input

/-- Runs operations one after another, stopping at the first that does not answer a next state. -/
def runOps : List Instr → State → Host.Outcome State Fault Refusal
  | [], s => .next s
  | i :: is, s =>
    match exec i s with
    | .next t => runOps is t
    | .fault r => .fault r
    | .refused r => .refused r

/-- Ends the edge of an outcome that is a next state. -/
def finishOutcome : Host.Outcome State Fault Refusal → Host.Outcome State Fault Refusal
  | .next t => .next t.finishEdge
  | .fault r => .fault r
  | .refused r => .refused r

/-- One rising edge of `clk`. -/
def edge (s : State) : Host.Outcome State Fault Refusal :=
  match s.edgeRefusal with
  | some r => .refused r
  | none => finishOutcome (runOps s.presented.selected s.presented)

/-- The program slot that holds the payload of a table word at the next index to fetch: `PC` filler tokens, then it. -/
def fetchProgram (pc tokw w : Nat) : List Tok := List.replicate pc 0 ++ [payloadOf tokw w]

/-- Parameters under which the payload of a table word of `tokw + 1` bits is fetched and classified as its `BR` bit
says: no token has a text, and the marker is empty for `BR = 1` (R55) and not for `BR = 0`. -/
def fetchParams (ps : Params) (pc tokw w : Nat) : Params :=
  { ps with tokw := tokw, pcw := pc + 1, texts := [], branchMarker := if flagOf tokw w then [] else ['B'] }

end Sys2Proof.Machine
end

