-- ==== Sys2Proof/Machine/Step.lean ====
section
/-! DEFINITION. The step, one rising clock edge, and the placing of an instruction where it fetches. -/

namespace Sys2Proof.Machine

/-- One step is one rising edge of `clk` (R58, R112, decision D1). -/
def step (s : State) : Host.Outcome State Fault Refusal := edge s

/-- `s` with a classified token word of `nbits` bits placed as the instruction that the next step fetches: its payload
at index `PC` of the program, the open parameters instantiated so that it is classified as its `BR` bit says, loaded, the host
idle and no fault recorded, without which no cycle happens (R58). -/
def State.withFetchWord (s : State) (nbits w : Nat) : State :=
  { s with
    params := fetchParams s.params s.pc (nbits - 1) w
    prog := fetchProgram s.pc (nbits - 1) w
    loaded := true
    inputs := []
    fault := .none }

end Sys2Proof.Machine
end

