-- ==== Sys2Proof/Laws/Bits.lean ====
section
/-! SUPPORT. The fields of a flagged word, the range of a signed read, the substring test as a decomposition. -/

namespace Sys2Proof.Machine

theorem flaggedWord_lt {tokw p : Nat} (flag : Bool) (h : p < 2 ^ tokw) :
    flaggedWord tokw flag p < 2 ^ (tokw + 1) := by
  unfold flaggedWord
  split <;> omega

theorem flagOf_flaggedWord {tokw p : Nat} (flag : Bool) (h : p < 2 ^ tokw) :
    flagOf tokw (flaggedWord tokw flag p) = flag := by
  cases flag
  · simpa [flagOf, flaggedWord] using Nat.testBit_lt_two_pow h
  · simp [flagOf, flaggedWord, Nat.testBit_two_pow_add_eq, Nat.testBit_lt_two_pow h]

theorem payloadOf_flaggedWord {tokw p : Nat} (flag : Bool) (h : p < 2 ^ tokw) :
    payloadOf tokw (flaggedWord tokw flag p) = p := by
  cases flag <;> simp [payloadOf, flaggedWord, Nat.mod_eq_of_lt h]

theorem payloadOf_lt (tokw w : Nat) : payloadOf tokw w < 2 ^ tokw :=
  Nat.mod_lt _ (Nat.two_pow_pos tokw)

/-- A word of `tokw + 1` bits is its two fields put together. -/
theorem flaggedWord_of_fields {tokw w : Nat} (h : w < 2 ^ (tokw + 1)) :
    flaggedWord tokw (flagOf tokw w) (payloadOf tokw w) = w := by
  have hpos := Nat.two_pow_pos tokw
  have hdm := Nat.div_add_mod w (2 ^ tokw)
  have hlt : w / 2 ^ tokw < 2 := by
    apply Nat.div_lt_of_lt_mul
    rwa [Nat.pow_succ] at h
  unfold flaggedWord flagOf payloadOf
  rw [Nat.testBit_eq_decide_div_mod_eq]
  rcases Nat.lt_or_ge (w / 2 ^ tokw) 1 with h0 | h1
  · have h0' : w / 2 ^ tokw = 0 := Nat.lt_one_iff.mp h0
    rw [h0'] at hdm ⊢
    simp at hdm ⊢
    exact hdm
  · have h1' : w / 2 ^ tokw = 1 := Nat.le_antisymm (Nat.lt_succ_iff.mp hlt) h1
    rw [h1'] at hdm ⊢
    simp at hdm ⊢
    exact hdm

/-- A signed read of `xlen` bits is representable in `xlen` bits. -/
theorem fitsSigned_signedOfBits {xlen : Nat} (h : 1 ≤ xlen) (v : Int) :
    fitsSigned xlen (signedOfBits xlen v) = true := by
  obtain ⟨k, rfl⟩ : ∃ k, xlen = k + 1 := ⟨xlen - 1, by omega⟩
  have hpos : (0 : Int) < 2 ^ k := by positivity
  have hpow : ((2 ^ (k + 1) : Nat) : Int) = 2 * 2 ^ k := by push_cast; ring
  have hlo := Int.le_bmod (x := v) (m := 2 ^ (k + 1)) (Nat.two_pow_pos _)
  have hhi := Int.bmod_lt (x := v) (m := 2 ^ (k + 1)) (Nat.two_pow_pos _)
  rw [hpow] at hlo hhi
  have hd : (2 * 2 ^ k + 1 : Int) / 2 = 2 ^ k := by omega
  have hd' : (2 * 2 ^ k : Int) / 2 = 2 ^ k := by omega
  rw [hd] at hhi
  rw [hd'] at hlo
  simp only [fitsSigned, signedOfBits, Nat.add_sub_cancel, decide_eq_true_eq]
  exact ⟨hlo, hhi⟩

theorem fitsSigned_zero (xlen : Nat) : fitsSigned xlen 0 = true := by
  have hpos : (0 : Int) < 2 ^ (xlen - 1) := by positivity
  simp only [fitsSigned, decide_eq_true_eq]
  omega

/-- A representable value is its own signed read. -/
theorem signedOfBits_of_fits {xlen : Nat} (h : 1 ≤ xlen) {v : Int} (hv : fitsSigned xlen v = true) :
    signedOfBits xlen v = v := by
  obtain ⟨k, rfl⟩ : ∃ k, xlen = k + 1 := ⟨xlen - 1, by omega⟩
  simp only [fitsSigned, Nat.add_sub_cancel, decide_eq_true_eq] at hv
  have hpow : ((2 ^ (k + 1) : Nat) : Int) = 2 * 2 ^ k := by push_cast; ring
  unfold signedOfBits
  apply Int.bmod_eq_of_le <;> rw [hpow] <;> omega

/-- The substring test finds exactly the contiguous occurrences (R10). -/
theorem containsText_iff_infix (s m : Text) : containsText s m = true ↔ m <:+: s := by
  induction s with
  | nil => simp [containsText]
  | cons c s ih => simp [containsText, ih, List.infix_cons_iff]

theorem containsText_nil (s : Text) : containsText s [] = true := by
  cases s <;> simp [containsText]

end Sys2Proof.Machine
end

