-- ==== Sys2Proof/Laws/Encoding.lean ====
section
/-! SUPPORT. The classified token word and the slot word, read back. -/

namespace Sys2Proof

open Sys2Proof.Machine

/-- The two rows of R56. -/
@[simp] theorem Classified.toInstr_true (p : Tok) : Classified.toInstr ⟨true, p⟩ = .branchToken p := rfl
@[simp] theorem Classified.toInstr_false (p : Tok) : Classified.toInstr ⟨false, p⟩ = .nonbranchToken p := rfl

/-- A classified token is read back from its word (R48). -/
theorem Classified.ofWord_toWord {tokw : Nat} (c : Classified) (h : c.p < 2 ^ tokw) :
    Classified.ofWord tokw (c.toWord tokw) = .ok c := by
  unfold Classified.ofWord Classified.toWord
  rw [if_pos (flaggedWord_lt c.br h), flagOf_flaggedWord c.br h, payloadOf_flaggedWord c.br h]

/-- Every word of the format is the word of exactly the token read from it (R48). -/
theorem Classified.toWord_ofWord {tokw w : Nat} (h : w < 2 ^ (tokw + 1)) :
    ∃ c, Classified.ofWord tokw w = .ok c ∧ c.toWord tokw = w ∧ c.p < 2 ^ tokw := by
  refine ⟨⟨flagOf tokw w, payloadOf tokw w⟩, ?_, flaggedWord_of_fields h, payloadOf_lt tokw w⟩
  simp [Classified.ofWord, h]

/-- The row of a classified token's own word is the row it selects. -/
theorem decodeClassified_toWord {tokw : Nat} (c : Classified) (h : c.p < 2 ^ tokw) :
    decodeClassified tokw (c.toWord tokw) = .ok c.toInstr := by
  simp [decodeClassified, Classified.ofWord_toWord c h, Except.map]

end Sys2Proof
end

