-- ==== Sys2Proof/Laws/PerInstr.lean ====
section
/-!
SUPPORT. Statements about every instruction as syntax, one lemma per constructor.
-/

namespace Sys2Proof.Laws.TableFormat

/-- An instruction is encoded in the format its row of `spec/opcode_table.json` has: the classified token word of its `BR`
and payload for the two token rows, which fits `TOKW + 1` bits and shows both fields if the payload fits `TOKW` bits
(R48, R56); port values for the four PORT rows, which drive no port of another row. -/
def Statement (i : Instr) : Prop :=
  ∀ tokw : Nat,
    (∃ (br : Bool) (p : Tok), i = (if br then .branchToken p else .nonbranchToken p) ∧
      encode tokw i = .classified (Classified.toWord tokw ⟨br, p⟩) ∧
      (p < 2 ^ tokw → Classified.toWord tokw ⟨br, p⟩ < 2 ^ (tokw + 1) ∧
        (Classified.toWord tokw ⟨br, p⟩).testBit tokw = br ∧ Classified.toWord tokw ⟨br, p⟩ % 2 ^ tokw = p)) ∨
    (∃ e, encode tokw i = .ports e ∧ e.load = none ∧ (e.rst = true ↔ i = .reset) ∧
      (e.rfRe = true ↔ i = .rfRead e.rfRaddr) ∧ (e.rfWe = true ↔ i = .rfWrite e.rfWaddr e.rfWdata))

theorem branchToken (p : Tok) : Statement (.branchToken p) := fun _ => .inl ⟨true, p, rfl, rfl, fun h =>
  ⟨Machine.flaggedWord_lt true h, Machine.flagOf_flaggedWord true h, Machine.payloadOf_flaggedWord true h⟩⟩

theorem nonbranchToken (p : Tok) : Statement (.nonbranchToken p) := fun _ => .inl ⟨false, p, rfl, rfl, fun h =>
  ⟨Machine.flaggedWord_lt false h, Machine.flagOf_flaggedWord false h, Machine.payloadOf_flaggedWord false h⟩⟩

theorem reset : Statement .reset := fun _ => .inr ⟨_, rfl, rfl, by simp, by simp, by simp⟩

theorem cycle : Statement .cycle :=
  fun _ => .inr ⟨_, rfl, rfl, by simp [EdgeInput.idle], by simp [EdgeInput.idle], by simp [EdgeInput.idle]⟩

theorem rfRead (index : Int) : Statement (.rfRead index) :=
  fun _ => .inr ⟨_, rfl, rfl, by simp, by simp, by simp⟩

theorem rfWrite (index : Int) (value : Value) : Statement (.rfWrite index value) :=
  fun _ => .inr ⟨_, rfl, rfl, by simp, by simp, by simp⟩

end Sys2Proof.Laws.TableFormat
end

