-- ==== Sys2Proof/Machine/Report.lean ====
section
/-!
DEFINITION. What the block shows: the output ports (R30), the stage lines and the report (`spec/43_stage_report.md`), and
the final count. All are functions of the state.
-/

namespace Sys2Proof.Machine

/-- The cause codes on `fault_cause` (R23, R105): two bits, 3 never produced. -/
def FaultCause.code : FaultCause → BitVec 2
  | .none => 0
  | .regReadIndex => 1
  | .regWriteIndex => 2

/-- The output ports (R30); `imem_addr` is `PC` too. -/
structure Outputs where
  imemAddr : Nat
  pcOut : Nat
  stageOut : Stages
  btOut : Bool
  running : Bool
  halted : Bool
  countOut : Nat
  fault : Bool
  faultCause : BitVec 2
  rfRdata : Value
  deriving DecidableEq, Repr

/-- The values on the output ports in the current cycle, combinational in the state (R30, R83). `running` and `halted`
compare with the length of the program in place before the cycle's closing edge; R29 fixes `prog_len` only from the
edge at which `rst` falls, so that while `rst = 1`, in a cycle in which another program is presented or before any is,
the `N` they use is the model's choice (DESIGN CHOICE, Assumption 19). -/
def State.outputs (s : State) : Outputs where
  imemAddr := s.pc
  pcOut := s.pc
  stageOut := s.stages
  btOut := s.bt
  running := s.running
  halted := s.halted
  countOut := s.count
  fault := s.faulted
  faultCause := s.fault.code
  rfRdata := s.portRead s.input.rfRaddr

/-- A stage's name as text (R18). -/
def StageName.text : StageName → Text
  | .IF => "IF".toList
  | .ID => "ID".toList
  | .EX => "EX".toList
  | .MEM => "MEM".toList
  | .WB => "WB".toList

/-- The stages in the report's order (R95). -/
def StageName.all : List StageName := [.IF, .ID, .EX, .MEM, .WB]

/-- The text of a slot's content: the token's rendering, or the explicit empty marker (R93). -/
def slotText (ps : Params) : Slot → Text
  | .empty => ps.emptyMark
  | .full t => render ps t

/-- `render()` of stage slot `j` (R93). -/
def State.stageLine (s : State) (j : StageName) : Text :=
  j.text ++ ": ".toList ++ slotText s.params (s.stages.get j)

/-- A report's content (R94). -/
structure Report where
  pc : Nat
  stages : Stages
  deriving DecidableEq, Repr

/-- The report read from a state (R94). -/
def State.report (s : State) : Report := ⟨s.pc, s.stages⟩

/-- The lines of a report in the reference layout (R95): header, the five stages in order, a blank line. -/
def State.reportLines (s : State) : List Text :=
  Config.headerLine s.pc :: StageName.all.map s.stageLine ++ [[]]

/-- The edge closing the current cycle performs an engine cycle (R58). -/
def State.cycles (s : State) : Bool := !s.input.rst && s.cycleEnabled

/-- The report emitted after an edge that led from `s` to `t` (R94, R96): one per cycle, none from a faulted state
(R107). -/
def reportOf (s t : State) : Option Report :=
  if s.cycles && !t.faulted then some t.report else none

/-- A run is on: a program is loaded, and reset is released in the current cycle or the engine has cycled since the
last reset. A host that holds reset, its load not having succeeded, has no run (R102). Assumption 20. -/
def State.inRun (s : State) : Bool := s.loaded && (!s.input.rst || decide (0 < s.pc))

/-- The end of a run (R98): halted with no fault recorded. -/
def State.ended (s : State) : Bool := s.inRun && s.halted && !s.faulted

/-- The final count (R97): `COUNT` at the end of a run; none while running, none when faulted (R107), and none where
there is no run (R102). -/
def State.finalCount (s : State) : Option Nat := if s.ended then some s.count else none

end Sys2Proof.Machine
end

