-- ==== Sys2Proof/Machine/Trace.lean ====
section
/-! DEFINITION. Runs, and the observation of a run (R96): the reports that its edges emit, in order. -/

namespace Sys2Proof.Machine

/-- `k` edges from `s`, stopping at the first that does not answer a next state. -/
def run : Nat → State → Host.Outcome State Fault Refusal
  | 0, s => .next s
  | k + 1, s =>
    match step s with
    | .next t => run k t
    | .fault r => .fault r
    | .refused r => .refused r

/-- The reports emitted over the next `k` edges from `s`. -/
def trace : Nat → State → List Report
  | 0, _ => []
  | k + 1, s =>
    match step s with
    | .next t => (reportOf s t).toList ++ trace k t
    | .fault _ => []
    | .refused _ => []

end Sys2Proof.Machine
end

