-- ==== Sys2Proof/Safety.lean ====
section
/-!
DEFINITION. The terms claims use: the invariant of the reachable states, safe edges and runs, and when two states differ in
nothing that the engine shows.
-/

namespace Sys2Proof.Safety

open Sys2Proof.Machine

/-- The place of a stage in the pipeline: the `j` of `STAGE[j]` (R18). -/
def place : StageName → Nat
  | .IF => 0
  | .ID => 1
  | .EX => 2
  | .MEM => 3
  | .WB => 4

/-- What R19 says slot `j` holds after `k` cycles of a program: the token fetched `j` cycles before the last. -/
def expectedSlot (prog : List Tok) (k j : Nat) : Slot :=
  if j < k then
    match prog[k - 1 - j]? with
    | some t => .full t
    | none => .empty
  else .empty

/-- R19's exact form of the occupancy invariant. -/
def OccupancyOk (s : State) : Prop :=
  ∀ j : StageName, s.stages.get j = expectedSlot s.prog s.pc (place j)

/-- Every register holds a signed `XLEN`-bit value (R20). -/
def RegsOk (s : State) : Prop := ∀ i : Fin 32, fitsSigned s.params.xlen (s.readReg i) = true

/-- The invariant of the reachable states: `COUNT = PC ≤ N ≤ 2^PCW − 1` (R16, R17, R73), `BT = false` (R22), the
occupancy (R19), the widths of tokens and registers, and no program where none is loaded. -/
structure Inv (s : State) : Prop where
  params : paramsOk s.params = true
  program : programFits s.params s.prog = true
  tokens : tokensFit s.params s.prog = true
  count_eq : s.count = s.pc
  pc_le : s.pc ≤ s.prog.length
  bt_false : s.bt = false
  occupancy : OccupancyOk s
  regs : RegsOk s
  unloaded : s.loaded = false → s.prog = []

/-- The number of occupied slots. -/
def occupied (st : Stages) : Nat :=
  (StageName.all.filter fun j => decide (st.get j ≠ .empty)).length

/-- An edge the host may present: none of its duties is broken (R101). -/
def presentable (s : State) : Bool := decide (s.edgeRefusal = none)

/-- The host is idle from here on: it leaves reset released and uses no port. -/
def hostIdle (s : State) : Prop := s.inputs = []

/-- A state from which a program runs undisturbed: no fault, an idle host, a loaded program it may present. -/
structure Undisturbed (s : State) : Prop where
  fault : s.fault = .none
  loaded : s.loaded = true
  idle : hostIdle s
  program : programFits s.params s.prog = true
  tokens : tokensFit s.params s.prog = true

/-- `s` under another branch marker. -/
def withMarker (s : State) (marker : Text) : State :=
  { s with params := { s.params with branchMarker := marker } }

/-- The registers of `s` replaced. -/
def withRegs (s : State) (regs : Vector Value 32) : State := { s with regs := regs }

/-- `t` has the `PC`, `COUNT`, `STAGE` and `BT` of `s`. -/
def sameEngine (s t : State) : Prop :=
  t.pc = s.pc ∧ t.count = s.count ∧ t.stages = s.stages ∧ t.bt = s.bt

/-- `t` has every element of state that `spec/10_state.md` gives the block as `s` has it, and the same program and
parameters: only the edge's inputs are gone. -/
def sameBlock (s t : State) : Prop :=
  sameEngine s t ∧ t.regs = s.regs ∧ t.fault = s.fault ∧ t.prog = s.prog ∧ t.loaded = s.loaded ∧
    t.params = s.params

/-- A read performed in the current cycle names no register (R85). -/
def badRead (e : EdgeInput) : Bool := e.rfRe && !indexInRange e.rfRaddr

/-- A write performed at the current edge names no register (R87). -/
def badWrite (e : EdgeInput) : Bool := e.rfWe && !indexInRange e.rfWaddr

/-- What the host may drive in a cycle of an uninterrupted run: any register-file operations but out-of-range ones. -/
def uninterrupting (ps : Params) (e : EdgeInput) : Bool :=
  !e.rst && e.load.isNone && writeDataFits ps e && !badRead e && !badWrite e

/-- A state from which a program runs uninterrupted: no fault, a loaded program the host may present, and from here on
neither reset nor an out-of-range register index; in-range register reads and writes are free. -/
structure Uninterrupted (s : State) : Prop where
  fault : s.fault = .none
  loaded : s.loaded = true
  host : ∀ e ∈ s.inputs, uninterrupting s.params e = true
  program : programFits s.params s.prog = true
  tokens : tokensFit s.params s.prog = true

end Sys2Proof.Safety
end

