-- ==== Sys2Proof/Certificates/Slice0/Obligations.lean ====
section
/-!
DEFINITION. The statements for the provers. Each formalises rules of `spec/` or, where its docstring says so, a choice of
the model that the assumption log names.
-/

open Sys2Proof Sys2Proof.Machine Sys2Proof.Safety

/-! ### What a step runs -/

/-- At an edge where the engine cycles and the host uses no port, the step is the meaning of the instruction decoded
from the token at `PC`, after which the edge ends (its inputs are dropped and the model's edge number grows); that
instruction is well formed. -/
def Obligations.StepRunsTheFetchedInstruction : Prop :=
  ∀ (s : State) (tok : Tok), s.edgeRefusal = none → s.input.rst = false → s.input.rfRe = false →
    s.input.rfWe = false → s.fault = .none → s.fetch s.pc = some tok →
      wellFormed s.params (decodeToken s.params tok) = true ∧
      step s = finishOutcome (exec (decodeToken s.params tok) s)

/-- At every edge the host may present, the step runs the operations that the port values select, one after another,
from the state in which the program presented at the edge is in place. Both are the model's: that they are run in turn
(log entry 8; R112 evaluates them against the state before the edge, which O3 states) and how a program is presented
(log entry 5). -/
def Obligations.StepRunsTheSelectedOperations : Prop :=
  ∀ s : State, s.edgeRefusal = none →
    step s = finishOutcome
      (runOps (decodePorts s.faulted s.presented.running s.input) s.presented)

/-- R112, the whole priority at one edge: reset first and alone, then the fault with nothing happening, otherwise the
cycle and the ports, each read from the state before the edge although the step runs them in turn, R89 deciding the
cause and suppressing the writes. That the step runs them in turn is the model's (log entry 8), as is that a program
presented at a reset edge is in place after it (log entry 5). -/
def Obligations.EdgeActsOnTheStateBeforeIt : Prop :=
  ∀ s : State, s.edgeRefusal = none → ∃ t, step s = .next t ∧
    (s.input.rst = true → ∃ u, exec .reset s.presented = .next u ∧ sameBlock u t) ∧
    (s.input.rst = false → s.fault ≠ .none → sameBlock s t) ∧
    (s.input.rst = false → s.fault = .none →
      (∃ u, exec .cycle s = .next u ∧ sameEngine u t) ∧
      t.fault = (if badWrite s.input then .regWriteIndex
        else if badRead s.input then .regReadIndex else .none) ∧
      (∀ i : Fin 32, t.readReg i =
        if badWrite s.input = false ∧ badRead s.input = false ∧ s.input.rfWe = true ∧
            s.input.rfWaddr = ((i : Nat) : Int) ∧ i ≠ 0
        then s.input.rfWdata else s.readReg i) ∧
      t.prog = s.prog ∧ t.params = s.params)

/-- Every edge the host may present completes, and so does every instruction. R104 says so of every operation but the
out-of-range register index; that this one answers a next state too is the model's (log entry 15: `FAULT` is state and
no end of the machine), as is which edges the host may present (log entry 9). -/
def Obligations.NothingEndsTheMachine : Prop :=
  (∀ (i : Instr) (s : State), ∃ t, exec i s = .next t) ∧
  (∀ s : State, s.edgeRefusal = none → ∃ t, step s = .next t)

/-- The model gives no meaning to a program longer than `2^PCW − 1`, to a program presented while `rst = 0`, and to reset
released before a program is loaded. The three refusals and their names are the model's (log entry 9). -/
def Obligations.UnpresentableProgramsAreRefused : Prop :=
  ∀ s : State,
    (loadAllowed s.input = true → releaseAllowed s.loaded s.input = true → 2 ^ s.params.pcw - 1 < s.presented.prog.length →
      step s = .refused .programTooLong) ∧
    (s.input.rst = false → s.input.load ≠ none → step s = .refused .programChangedInRun) ∧
    (s.loaded = false → s.input.rst = false → s.input.load = none →
      step s = .refused .resetReleasedUnloaded)

/-! ### The engine cycle and the two token classes -/

/-- R69: a branch-classified token's cycle, and everything it leaves unchanged. -/
def Obligations.BranchTokenRuns : Prop :=
  ∀ (p : Tok) (s : State), s.fault = .none → s.pc < s.prog.length →
    exec (.branchToken p) s = .next { s with
      pc := s.pc + 1
      count := s.count + 1
      stages := ⟨.full p, s.stages.IF, s.stages.ID, s.stages.EX, s.stages.MEM⟩
      bt := false }

/-- R70: a non-branch token's cycle, and everything it leaves unchanged, `BT` among it. -/
def Obligations.NonbranchTokenRuns : Prop :=
  ∀ (p : Tok) (s : State), s.fault = .none → s.pc < s.prog.length →
    exec (.nonbranchToken p) s = .next { s with
      pc := s.pc + 1
      count := s.count + 1
      stages := ⟨.full p, s.stages.IF, s.stages.ID, s.stages.EX, s.stages.MEM⟩ }

/-- R68: the whole cycle of an enabled engine, with the token at `PC` and its computed class, and its frame. -/
def Obligations.CycleRuns : Prop :=
  ∀ (s : State) (tok : Tok), s.fault = .none → s.fetch s.pc = some tok →
    exec .cycle s = .next { s with
      pc := s.pc + 1
      count := s.count + 1
      stages := ⟨.full tok, s.stages.IF, s.stages.ID, s.stages.EX, s.stages.MEM⟩
      bt := if isBranch s.params tok then false else s.bt }

/-- CYCLE is the row that the fetched token's class selects. -/
def Obligations.CycleRunsTheClassOfItsToken : Prop :=
  ∀ (s : State) (tok : Tok), s.fault = .none → s.fetch s.pc = some tok →
    exec .cycle s = exec (decodeToken s.params tok) s

/-- Where R58 enables no cycle (the block is faulted or halted), CYCLE leaves the state alone. R58 says it of an edge;
that the two token rows, taken by themselves, do so too is the model's choice (log entry 12). -/
def Obligations.DisabledCycleHolds : Prop :=
  ∀ (p : Tok) (s : State), s.fault ≠ .none ∨ s.prog.length ≤ s.pc →
    exec .cycle s = .next s ∧ exec (.branchToken p) s = .next s ∧ exec (.nonbranchToken p) s = .next s

/-- At an edge with `rst = 0`, whatever the ports do: one whole cycle if `FAULT = NONE` and `PC < N` before the edge,
and `PC`, `COUNT`, `STAGE` and `BT` as before otherwise. -/
def Obligations.StepCyclesExactlyWhenEnabled : Prop :=
  ∀ s : State, s.edgeRefusal = none → s.input.rst = false → ∃ t, step s = .next t ∧
    (s.fault = .none ∧ s.pc < s.prog.length →
      ∃ tok, s.fetch s.pc = some tok ∧ t.pc = s.pc + 1 ∧ t.count = s.count + 1 ∧
        t.stages = ⟨.full tok, s.stages.IF, s.stages.ID, s.stages.EX, s.stages.MEM⟩ ∧
        t.bt = if isBranch s.params tok then false else s.bt) ∧
    (¬ (s.fault = .none ∧ s.pc < s.prog.length) → sameEngine s t)

/-- The software copy loop in descending order, then the fetch, is the simultaneous shift; the ascending order puts
the old IF into every later stage. An inference the spec marks as its own (R60). -/
def Obligations.DescendingCopyIsTheShift : Prop :=
  ∀ (st : Stages) (f : Slot),
    ([(StageName.MEM, StageName.WB), (.EX, .MEM), (.ID, .EX), (.IF, .ID)].foldl
      (fun a c => a.process (a.get c.1) c.2) st).process f .IF = st.shift f ∧
    ([(StageName.IF, StageName.ID), (.ID, .EX), (.EX, .MEM), (.MEM, .WB)].foldl
      (fun a c => a.process (a.get c.1) c.2) st).process f .IF =
        ⟨f, st.IF, st.IF, st.IF, st.IF⟩

/-- The control unit's two fixed functions (R77, R79) and its tied condition (R64). -/
def Obligations.ControlUnitNeverTakes : Prop :=
  conditionSignal = false ∧ (∀ cond : Bool, resolveBranch cond = false) ∧ ∀ pc : Nat, redirect pc = pc + 1

/-- The two classes of one token differ in nothing but the write of `BT`. An inference the spec marks as its own
(R66). -/
def Obligations.TokenClassChangesOnlyBt : Prop :=
  ∀ (p : Tok) (s : State), s.fault = .none → s.pc < s.prog.length →
    ∃ t, exec (.nonbranchToken p) s = .next t ∧ exec (.branchToken p) s = .next { t with bt := false }

/-- From any state with `BT = false`, over any number of edges and whatever the host does, another branch marker gives
the same reports and the same states but for the marker itself. An inference the spec marks as its own (R55, R66). The
registers of the two runs agree across a reset edge because the model's draw of `RF_INIT` depends on the edge's number
alone (log entry 3). -/
def Obligations.BranchMarkerIsUnobservable : Prop :=
  ∀ (k : Nat) (s : State) (marker : Text), s.bt = false →
    trace k (withMarker s marker) = trace k s ∧
    ∀ t : State, run k s = .next t →
      run k (withMarker s marker) = .next (withMarker t marker)

/-! ### Runs -/

/-- The token at `PC` is in the stage of place `j` after `j + 1` further cycles, if the run has so many, from any
unfaulted state and whatever in-range register-file operations the host performs meanwhile (R40, R91), as long as it
neither resets nor uses an out-of-range index. An inference the spec marks as its own (R75). -/
def Obligations.TokenReachesEachStageInTurn : Prop :=
  ∀ (s : State) (tok : Tok) (j : StageName), Uninterrupted s → s.fetch s.pc = some tok →
    s.pc + place j + 1 ≤ s.prog.length →
      ∃ t : State, run (place j + 1) s = .next t ∧ t.stages.get j = .full tok

/-- An undisturbed run from any state takes one cycle per remaining instruction and is then halted with `PC = N`; it
emits one report per cycle and changes no register. An inference the spec marks as its own (R73, R132). -/
def Obligations.UndisturbedRunHalts : Prop :=
  ∀ s : State, Undisturbed s → s.pc ≤ s.prog.length →
    ∃ t : State, run (s.prog.length - s.pc) s = .next t ∧
      t.pc = s.prog.length ∧ t.count = s.count + (s.prog.length - s.pc) ∧ t.ended = true ∧
      t.prog = s.prog ∧ t.regs = s.regs ∧
      (trace (s.prog.length - s.pc) s).length = s.prog.length - s.pc

/-- Whatever the state, a reset edge that presents a program of length `N` and then an idle host lead, after `N` more
edges, to the end of a run whose final count is `N`, after `N` reports, with R75's slot contents: `PROG[N−1]` in IF
down to `PROG[N−5]` in WB, empty where there is none. The form of the reset edge that presents a program and the idle
host after the inputs' end are the model's (log entries 5 and 1). -/
def Obligations.BootedProgramRunsToItsCount : Prop :=
  ∀ (s : State) (prog : List Tok), s.inputs = [{ rst := true, load := some prog }] →
    programFits s.params prog = true → tokensFit s.params prog = true →
      ∃ t : State, run (prog.length + 1) s = .next t ∧
        t.ended = true ∧ t.finalCount = some prog.length ∧
        (trace (prog.length + 1) s).length = prog.length ∧
        ∀ j : StageName, t.stages.get j = expectedSlot prog prog.length (place j)

/-- In that run, report `k` shows `PC = k` and in the stage of place `j` the token fetched `j` cycles earlier, or an
empty slot. The load edge and the idle host are the model's form (log entries 5 and 1). -/
def Obligations.BootedTraceShowsTheOccupancy : Prop :=
  ∀ (s : State) (prog : List Tok) (k : Nat), s.inputs = [{ rst := true, load := some prog }] →
    programFits s.params prog = true → tokensFit s.params prog = true → 1 ≤ k → k ≤ prog.length →
      ∃ r, (trace (prog.length + 1) s)[k - 1]? = some r ∧ r.pc = k ∧
        ∀ j : StageName, r.stages.get j = expectedSlot prog k (place j)

/-- A halted engine's state holds at every edge without reset, and the ports go on working: a write in range is
performed, halted or not (R74; the ports' side is R91). -/
def Obligations.HaltedEngineHolds : Prop :=
  ∀ s : State, s.edgeRefusal = none → s.input.rst = false → s.prog.length ≤ s.pc →
    ∃ t, step s = .next t ∧ sameEngine s t ∧ t.halted = true ∧
      (s.fault = .none → badRead s.input = false → ∀ i : Fin 32, i ≠ 0 → s.input.rfWe = true →
        s.input.rfWaddr = ((i : Nat) : Int) → t.readReg i = s.input.rfWdata)

/-! ### The invariant -/

/-- The invariant holds right after reset, with no program presented and the chip's own parameters (the model's fields,
log entries 2 and 16). -/
def Obligations.InvariantHoldsAtReset : Prop := Inv State.reset

/-- Every step keeps the invariant, from every state that has it: `COUNT = PC ≤ N` (R16, R73), `BT = false` (R22),
the exact occupancy (R19), the widths (R4, R17, R20). -/
def Obligations.StepKeepsTheInvariant : Prop :=
  ∀ s t : State, Inv s → step s = .next t → Inv t

/-- Where the invariant holds, the number of occupied slots is `min(COUNT, 5)` (R19, R134, inferences the spec marks
as its own). -/
def Obligations.OccupiedSlotsAreMinCountFive : Prop :=
  ∀ s : State, Inv s → occupied s.stages = min s.count 5

/-! ### Reset -/

/-- What reset leaves where the spec gives a value: `PC`, `COUNT`, `STAGE`, `BT`, `FAULT`, `x0`; with no program
loaded (the model's fields in this state, log entry 16) there is no run, so no end of one and no final count (R102, log
entry 20). The other registers hold free values (log entry 3). -/
def Obligations.ResetStateIsAsTheSpecSays : Prop :=
  State.reset.pc = 0 ∧ State.reset.count = 0 ∧ (∀ j : StageName, State.reset.stages.get j = .empty) ∧
    State.reset.bt = false ∧ State.reset.fault = .none ∧ State.reset.readReg 0 = 0 ∧
    State.reset.loaded = false ∧ State.reset.ended = false ∧ State.reset.finalCount = none

/-- RESET from any state, and its frame: the program, the parameters and what the host drives are not its. -/
def Obligations.ResetRuns : Prop :=
  ∀ s : State, ∃ t, exec .reset s = .next t ∧ t.pc = 0 ∧ t.count = 0 ∧
    (∀ j : StageName, t.stages.get j = .empty) ∧ t.bt = false ∧ t.fault = .none ∧ t.readReg 0 = 0 ∧
    (∀ a : Nat, t.fetch a = s.fetch a) ∧ t.params = s.params ∧ t.inputs = s.inputs ∧ t.edges = s.edges

/-- R121 at an edge with `rst = 1`, whatever the state (faulted, running, before the first reset) and the other inputs:
the reset state, no cycle and no port operation; each of `x1`..`x31` some `XLEN`-bit value. That a program presented at
the edge is in place after it and that the edge's inputs are used up are the model's (log entries 5 and 1). -/
def Obligations.ResetEdgeTakesTheResetState : Prop :=
  ∀ s : State, s.edgeRefusal = none → s.input.rst = true → paramsOk s.params = true →
    ∃ t, step s = .next t ∧ t.pc = 0 ∧ t.count = 0 ∧ (∀ j : StageName, t.stages.get j = .empty) ∧
      t.bt = false ∧ t.fault = .none ∧ t.readReg 0 = 0 ∧
      (∀ i : Fin 32, fitsSigned t.params.xlen (t.readReg i) = true) ∧
      t.params = s.params ∧ t.prog = s.presented.prog ∧ t.inputs = s.inputs.tail

/-! ### The register file -/

/-- R84 and R85: a performed read of an unfaulted block. In range it writes nothing and shows the register, zero for
`x0`; out of range it records `REG_READ_INDEX` and nothing else (no value is claimed for `rf_rdata`). -/
def Obligations.RegisterReadRuns : Prop :=
  ∀ s : State, s.fault = .none →
    (∀ i : Fin 32, exec (.rfRead ((i : Nat) : Int)) s = .next s ∧
      s.portRead ((i : Nat) : Int) = if i = 0 then 0 else s.regs[i]) ∧
    (∀ index : Int, index < 0 ∨ 31 < index →
      exec (.rfRead index) s = .next { s with fault := .regReadIndex })

/-- R86 and R87: a performed write of an unfaulted block. Index 0 is ignored without a fault, an index in 1..31 stores
the value exactly and leaves everything else, an index out of range records `REG_WRITE_INDEX` and nothing else. -/
def Obligations.RegisterWriteRuns : Prop :=
  ∀ (s : State) (v : Value), s.fault = .none →
    exec (.rfWrite 0 v) s = .next s ∧
    (∀ i : Fin 32, i ≠ 0 →
      exec (.rfWrite ((i : Nat) : Int) v) s = .next { s with regs := s.regs.set i v }) ∧
    (∀ index : Int, index < 0 ∨ 31 < index →
      exec (.rfWrite index v) s = .next { s with fault := .regWriteIndex })

/-- A write to any of `x1`..`x31` followed by a read of any register: the value written at that index, the old value
at every other. -/
def Obligations.WriteThenReadReturnsTheValue : Prop :=
  ∀ (s : State) (i j : Fin 32) (v : Value), s.fault = .none → i ≠ 0 →
    ∃ t, exec (.rfWrite ((i : Nat) : Int) v) s = .next t ∧ exec (.rfRead ((j : Nat) : Int)) t = .next t ∧
      t.portRead ((j : Nat) : Int) = if j = i then v else s.portRead ((j : Nat) : Int)

/-- R21: `x0` reads zero in every state, and a write to it changes nothing, faulted or not, whatever the value. -/
def Obligations.RegisterZeroIsHardWired : Prop :=
  (∀ s : State, s.portRead 0 = 0) ∧
  (∀ (s : State) (v : Value), exec (.rfWrite 0 v) s = .next s)

/-- R88: in the cycle whose closing edge writes `x[i]`, the read port shows the old value; after the edge the register
holds the value written, and every edge without reset and without a write to `i` keeps it. -/
def Obligations.ReadDuringWriteShowsTheOldValue : Prop :=
  ∀ i : Fin 32, i ≠ 0 →
    (∀ s : State, s.edgeRefusal = none → s.input.rst = false → s.fault = .none →
      s.input.rfWe = true → s.input.rfWaddr = ((i : Nat) : Int) →
      s.input.rfRe = true → s.input.rfRaddr = ((i : Nat) : Int) →
        s.outputs.rfRdata = s.regs[i] ∧
        ∃ t, step s = .next t ∧ t.readReg i = s.input.rfWdata) ∧
    (∀ s t : State, step s = .next t → s.input.rst = false →
      ¬ (s.input.rfWe = true ∧ s.input.rfWaddr = ((i : Nat) : Int)) → t.readReg i = s.readReg i)

/-- R90: the cycle and both token rows neither read nor write the register file; at an edge without reset, only a
performed write in range changes a register, and only the one it names. -/
def Obligations.NoStageUsesTheRegisterFile : Prop :=
  (∀ (i : Instr) (s : State) (regs : Vector Value 32),
    (i = .cycle ∨ ∃ p, i = .branchToken p ∨ i = .nonbranchToken p) →
      ∃ t, exec i s = .next t ∧ t.regs = s.regs ∧ exec i (withRegs s regs) = .next (withRegs t regs)) ∧
  (∀ (s t : State) (j : Fin 32), step s = .next t → s.input.rst = false → t.readReg j ≠ s.readReg j →
    s.fault = .none ∧ s.input.rfWe = true ∧ s.input.rfWaddr = ((j : Nat) : Int))

/-- The register file's contents never reach a report, over any number of edges and whatever the host does. -/
def Obligations.RegisterContentsNeverReachTheTrace : Prop :=
  ∀ (k : Nat) (s : State) (regs : Vector Value 32), trace k (withRegs s regs) = trace k s

/-- A cycle and an in-range register operation of an unfaulted block give the same state in either order. An inference
the spec marks as its own (R40). -/
def Obligations.CycleCommutesWithPortOperations : Prop :=
  ∀ (s : State) (i : Fin 32) (v : Value), s.fault = .none →
    runOps [.cycle, .rfWrite ((i : Nat) : Int) v] s = runOps [.rfWrite ((i : Nat) : Int) v, .cycle] s ∧
    runOps [.cycle, .rfRead ((i : Nat) : Int)] s = runOps [.rfRead ((i : Nat) : Int), .cycle] s

/-! ### Faults -/

/-- Where a fault is recorded, a read of any index and a write of any index do nothing, and the read port still shows
an in-range register. -/
def Obligations.FaultedPortsDoNothing : Prop :=
  ∀ (s : State) (index : Int) (v : Value), s.fault ≠ .none →
    exec (.rfRead index) s = .next s ∧ exec (.rfWrite index v) s = .next s ∧
    ∀ i : Fin 32, s.portRead ((i : Nat) : Int) = s.readReg i

/-- R107: the faulted block is quiescent. Nothing of it changes at an edge without reset, no report and no final count
is emitted, the state is no end of a run, and reset is what leaves it, the only one. -/
def Obligations.FaultedBlockIsFrozenUntilReset : Prop :=
  ∀ s : State, s.fault ≠ .none →
    s.finalCount = none ∧ s.ended = false ∧
    (s.edgeRefusal = none → s.input.rst = false →
      ∃ t, step s = .next t ∧ sameBlock s t ∧ reportOf s t = none) ∧
    (s.edgeRefusal = none → s.input.rst = true → ∃ t, step s = .next t ∧ t.fault = .none) ∧
    (∀ t, step s = .next t → t.fault = .none → s.input.rst = true)

/-- R89: an out-of-range operation at an edge. The write's cause wins, no register is written by any operation of that
edge, the engine's cycle of that edge is performed if it was enabled, and over any number of later edges without reset
nothing happens. -/
def Obligations.BadIndexSuppressesWritesNotTheCycle : Prop :=
  ∀ s : State, s.edgeRefusal = none → s.input.rst = false → s.fault = .none →
    (badRead s.input = true ∨ badWrite s.input = true) →
      ∃ t u, step s = .next t ∧ exec .cycle s = .next u ∧ sameEngine u t ∧ t.regs = s.regs ∧
        t.fault = (if badWrite s.input then .regWriteIndex else .regReadIndex) ∧
        ∀ (k : Nat) (v : State), (∀ e ∈ t.inputs.take k, e.rst = false) → run k t = .next v → sameBlock t v

/-- A fault is recorded at no other occasion: an unfaulted block is faulted after an edge only if a performed read or
write of that edge named no register, and the cause says which. Where both do, the write's cause is kept: the spec's
decision D28 (R89, R112). -/
def Obligations.FaultsComeFromBadIndicesOnly : Prop :=
  ∀ s t : State, s.fault = .none → step s = .next t → t.fault ≠ .none →
    s.input.rst = false ∧
    (t.fault = .regWriteIndex ∧ badWrite s.input = true ∨
     t.fault = .regReadIndex ∧ badRead s.input = true ∧ badWrite s.input = false)

/-! ### The program -/

/-- No instruction changes the program, and no edge without reset does: every index fetches what it fetched; no edge
changes the parameters. -/
def Obligations.ProgramIsImmutable : Prop :=
  (∀ (i : Instr) (s t : State) (a : Nat), exec i s = .next t → t.fetch a = s.fetch a) ∧
  (∀ (s t : State) (a : Nat), step s = .next t → s.input.rst = false → t.fetch a = s.fetch a) ∧
  (∀ s t : State, step s = .next t → t.params = s.params)

/-! ### Encoding -/

/-- Decoding what was encoded, for every well-formed instruction with every operand. A token row and RESET come back
alone. An edge without reset selects CYCLE exactly when the engine runs, beside the register-file operation encoded if
there is one. That CYCLE is listed before that operation is the model's order, no rule of the spec (log entry 8). -/
def Obligations.DecodeOfEncodeIsTheInstruction : Prop :=
  ∀ (ps : Params) (i : Instr), wellFormed ps i = true → ∀ running : Bool,
    decode ps.tokw running (encode ps.tokw i) = .ok (match i with
      | .branchToken p => [.branchToken p]
      | .nonbranchToken p => [.nonbranchToken p]
      | .reset => [.reset]
      | .cycle => if running then [.cycle] else []
      | .rfRead index => if running then [.cycle, .rfRead index] else [.rfRead index]
      | .rfWrite index v => if running then [.cycle, .rfWrite index v] else [.rfWrite index v])

/-- Every word of `TOKW + 1` bits is the classified word of exactly one token, whose row bit `TOKW` alone selects; a
wider word is rejected by name. The classified word is an inference the spec marks as its own (R48); the rejection is
the model's, no rule of the spec (log entry 21). -/
def Obligations.EveryClassifiedWordHasOneRow : Prop :=
  ∀ tokw w : Nat,
    (w < 2 ^ (tokw + 1) →
      decodeClassified tokw w =
        .ok (if w.testBit tokw then .branchToken (w % 2 ^ tokw) else .nonbranchToken (w % 2 ^ tokw)) ∧
      ∃ c, Classified.ofWord tokw w = .ok c ∧ c.toWord tokw = w ∧
        ∀ d : Classified, d.p < 2 ^ tokw → d.toWord tokw = w → d = c) ∧
    (2 ^ (tokw + 1) ≤ w → decodeClassified tokw w = .error .wordTooWide)

/-- The engine's decode of a fetched token is the table's decode of its classified word. -/
def Obligations.EngineDecodeIsTheTableDecode : Prop :=
  ∀ (ps : Params) (t : Tok), t < 2 ^ ps.tokw →
    decodeClassified ps.tokw ((classify ps t).toWord ps.tokw) = .ok (decodeToken ps t)

/-- R47: the slot word. `V = 1` is full with the payload bits, `V = 0` is empty whatever they hold. -/
def Obligations.SlotWordIsReadBack : Prop :=
  ∀ tokw p : Nat, p < 2 ^ tokw →
    Slot.ofWord tokw (2 ^ tokw + p) = .full p ∧ Slot.ofWord tokw p = .empty ∧
    (Slot.full p).toWord tokw p = 2 ^ tokw + p ∧
    ∀ junk : Nat, Slot.ofWord tokw (Slot.empty.toWord tokw junk) = .empty

/-- Words written out from the formats of the spec: classified tokens of an 8-bit payload, and port values. That CYCLE
is listed before the write of the same edge is the model's order, no rule of the spec (log entry 8). -/
def Obligations.WrittenOutWordsDecode : Prop :=
  decodeClassified 8 0b100000101 = .ok (.branchToken 0b00000101) ∧
  decodeClassified 8 0b000000101 = .ok (.nonbranchToken 0b00000101) ∧
  decodePorts false true { rst := true, rfWe := true, rfWaddr := 7, rfWdata := 3 } = [.reset] ∧
  decodePorts false true { rfWe := true, rfWaddr := 5, rfWdata := 42 } = [.cycle, .rfWrite 5 42] ∧
  decodePorts false false { rfRe := true, rfRaddr := 31 } = [.rfRead 31] ∧
  decodePorts true true { rfRe := true, rfRaddr := 31 } = []

/-- A placed table word is the instruction that the next step runs. The placing stands for the host's load and
instantiates open parameters (log entry 11): the model's own, no rule of the spec. -/
def Obligations.PlacedWordIsRunNext : Prop :=
  ∀ (s : State) (tokw w : Nat), w < 2 ^ (tokw + 1) →
    ∃ i, decodeTableWord (tokw + 1) w = some i ∧
      step (s.withFetchWord (tokw + 1) w) = finishOutcome (exec i (s.withFetchWord (tokw + 1) w))

/-- R49: a token is branch-classified exactly when the marker occurs in its text as a contiguous run of characters. -/
def Obligations.BranchClassIsTheSubstringTest : Prop :=
  ∀ (ps : Params) (t : Tok),
    isBranch ps t = true ↔ ∃ before after : Text, render ps t = before ++ ps.branchMarker ++ after

/-! ### Reports -/

/-- After a cycle at whose edge no fault is recorded, the report is the new `PC` and the new occupancy. After a cycle
at whose edge one is recorded there is none: the model's reading of R94 beside R107 (log entry 7). -/
def Obligations.CycleEmitsItsReport : Prop :=
  ∀ (s : State) (tok : Tok), s.edgeRefusal = none → s.input.rst = false → s.fault = .none →
    s.fetch s.pc = some tok → ∃ t, step s = .next t ∧
      reportOf s t =
        if badRead s.input = true ∨ badWrite s.input = true then none
        else some ⟨s.pc + 1, ⟨.full tok, s.stages.IF, s.stages.ID, s.stages.EX, s.stages.MEM⟩⟩

/-- No report at a reset edge, after halting, or of a faulted block. -/
def Obligations.NoCycleNoReport : Prop :=
  ∀ s t : State, s.input.rst = true ∨ s.prog.length ≤ s.pc ∨ s.fault ≠ .none → reportOf s t = none

/-- R93: the line of a stage slot. -/
def Obligations.StageLineShowsNameAndContent : Prop :=
  ∀ (s : State) (j : StageName),
    (s.stages.get j = .empty → s.stageLine j = j.text ++ [':', ' '] ++ s.params.emptyMark) ∧
    (∀ t, s.stages.get j = .full t → s.stageLine j = j.text ++ [':', ' '] ++ render s.params t) ∧
    StageName.all.map StageName.text =
      [['I', 'F'], ['I', 'D'], ['E', 'X'], ['M', 'E', 'M'], ['W', 'B']]

/-- The output ports are the state's elements, and the read port shows the register that `rf_raddr` names (R30,
R83, R105). The `N` that `running` and `halted` use while `rst = 1` is the model's choice (log entry 19). -/
def Obligations.OutputPortsShowTheState : Prop :=
  ∀ s : State, s.outputs.imemAddr = s.pc ∧ s.outputs.pcOut = s.pc ∧ s.outputs.stageOut = s.stages ∧
    s.outputs.btOut = s.bt ∧ (s.outputs.running = true ↔ s.pc < s.prog.length) ∧
    (s.outputs.halted = true ↔ s.prog.length ≤ s.pc) ∧ s.outputs.countOut = s.count ∧
    (s.outputs.fault = true ↔ s.fault ≠ .none) ∧
    s.outputs.faultCause = (match s.fault with | .none => 0 | .regReadIndex => 1 | .regWriteIndex => 2) ∧
    ∀ i : Fin 32, s.input.rfRaddr = ((i : Nat) : Int) → s.outputs.rfRdata = s.readReg i

/-- Each instruction is encoded in its row's format: a token row in the classified word of `TOKW + 1` bits that shows its
`BR` and its payload, a PORT row in port values that drive no port of another row. -/
def Obligations.EachRowHasItsFormat : Prop := ∀ i : Instr, Sys2Proof.Laws.TableFormat.Statement i

/-! ### Held reset -/

/-- While the host holds reset there is no cycle, no report, no final count, no end of a run and no cause code, at every
edge, whatever was loaded before (R102); and a host that never loads a program, holding reset, keeps it so for any
number of edges. The form of the host is the model's (log entries 1, 5 and 20). -/
def Obligations.HeldResetProducesNothing : Prop :=
  (∀ s t : State, step s = .next t → s.input.rst = true → t.input.rst = true →
    t.pc = 0 ∧ t.count = 0 ∧ reportOf s t = none ∧ t.finalCount = none ∧ t.ended = false ∧
      t.fault = .none) ∧
  (∀ (k : Nat) (s : State), s.loaded = false → s.prog = [] →
    (∀ e ∈ s.inputs, e.rst = true ∧ e.load = none) →
      trace k s = [] ∧ ∃ t, run k s = .next t ∧ t.loaded = false ∧ t.finalCount = none ∧ t.ended = false)
end

