-- ==== Sys2Proof/Laws/State.lean ====
section
/-! SUPPORT. The fields of a state after each named update, so that no later proof unfolds a record update. -/

namespace Sys2Proof.Machine

/-! ### setEngine -/

@[simp] theorem State.setEngine_pc (s : State) (pc count : Nat) (stages : Stages) (bt : Bool) :
    (s.setEngine pc count stages bt).pc = pc := rfl
@[simp] theorem State.setEngine_count (s : State) (pc count : Nat) (stages : Stages) (bt : Bool) :
    (s.setEngine pc count stages bt).count = count := rfl
@[simp] theorem State.setEngine_stages (s : State) (pc count : Nat) (stages : Stages) (bt : Bool) :
    (s.setEngine pc count stages bt).stages = stages := rfl
@[simp] theorem State.setEngine_regs (s : State) (pc count : Nat) (stages : Stages) (bt : Bool) :
    (s.setEngine pc count stages bt).regs = s.regs := rfl
@[simp] theorem State.setEngine_bt (s : State) (pc count : Nat) (stages : Stages) (bt : Bool) :
    (s.setEngine pc count stages bt).bt = bt := rfl
@[simp] theorem State.setEngine_fault (s : State) (pc count : Nat) (stages : Stages) (bt : Bool) :
    (s.setEngine pc count stages bt).fault = s.fault := rfl
@[simp] theorem State.setEngine_params (s : State) (pc count : Nat) (stages : Stages) (bt : Bool) :
    (s.setEngine pc count stages bt).params = s.params := rfl
@[simp] theorem State.setEngine_prog (s : State) (pc count : Nat) (stages : Stages) (bt : Bool) :
    (s.setEngine pc count stages bt).prog = s.prog := rfl
@[simp] theorem State.setEngine_loaded (s : State) (pc count : Nat) (stages : Stages) (bt : Bool) :
    (s.setEngine pc count stages bt).loaded = s.loaded := rfl
@[simp] theorem State.setEngine_inputs (s : State) (pc count : Nat) (stages : Stages) (bt : Bool) :
    (s.setEngine pc count stages bt).inputs = s.inputs := rfl
@[simp] theorem State.setEngine_edges (s : State) (pc count : Nat) (stages : Stages) (bt : Bool) :
    (s.setEngine pc count stages bt).edges = s.edges := rfl

/-! ### setRegs -/

@[simp] theorem State.setRegs_pc (s : State) (regs : Vector Value 32) :
    (s.setRegs regs).pc = s.pc := rfl
@[simp] theorem State.setRegs_count (s : State) (regs : Vector Value 32) :
    (s.setRegs regs).count = s.count := rfl
@[simp] theorem State.setRegs_stages (s : State) (regs : Vector Value 32) :
    (s.setRegs regs).stages = s.stages := rfl
@[simp] theorem State.setRegs_regs (s : State) (regs : Vector Value 32) :
    (s.setRegs regs).regs = regs := rfl
@[simp] theorem State.setRegs_bt (s : State) (regs : Vector Value 32) :
    (s.setRegs regs).bt = s.bt := rfl
@[simp] theorem State.setRegs_fault (s : State) (regs : Vector Value 32) :
    (s.setRegs regs).fault = s.fault := rfl
@[simp] theorem State.setRegs_params (s : State) (regs : Vector Value 32) :
    (s.setRegs regs).params = s.params := rfl
@[simp] theorem State.setRegs_prog (s : State) (regs : Vector Value 32) :
    (s.setRegs regs).prog = s.prog := rfl
@[simp] theorem State.setRegs_loaded (s : State) (regs : Vector Value 32) :
    (s.setRegs regs).loaded = s.loaded := rfl
@[simp] theorem State.setRegs_inputs (s : State) (regs : Vector Value 32) :
    (s.setRegs regs).inputs = s.inputs := rfl
@[simp] theorem State.setRegs_edges (s : State) (regs : Vector Value 32) :
    (s.setRegs regs).edges = s.edges := rfl

/-! ### setFault -/

@[simp] theorem State.setFault_pc (s : State) (cause : FaultCause) :
    (s.setFault cause).pc = s.pc := rfl
@[simp] theorem State.setFault_count (s : State) (cause : FaultCause) :
    (s.setFault cause).count = s.count := rfl
@[simp] theorem State.setFault_stages (s : State) (cause : FaultCause) :
    (s.setFault cause).stages = s.stages := rfl
@[simp] theorem State.setFault_regs (s : State) (cause : FaultCause) :
    (s.setFault cause).regs = s.regs := rfl
@[simp] theorem State.setFault_bt (s : State) (cause : FaultCause) :
    (s.setFault cause).bt = s.bt := rfl
@[simp] theorem State.setFault_fault (s : State) (cause : FaultCause) :
    (s.setFault cause).fault = cause := rfl
@[simp] theorem State.setFault_params (s : State) (cause : FaultCause) :
    (s.setFault cause).params = s.params := rfl
@[simp] theorem State.setFault_prog (s : State) (cause : FaultCause) :
    (s.setFault cause).prog = s.prog := rfl
@[simp] theorem State.setFault_loaded (s : State) (cause : FaultCause) :
    (s.setFault cause).loaded = s.loaded := rfl
@[simp] theorem State.setFault_inputs (s : State) (cause : FaultCause) :
    (s.setFault cause).inputs = s.inputs := rfl
@[simp] theorem State.setFault_edges (s : State) (cause : FaultCause) :
    (s.setFault cause).edges = s.edges := rfl

/-! ### loadProgram -/

@[simp] theorem State.loadProgram_pc (s : State) (prog : List Tok) :
    (s.loadProgram prog).pc = s.pc := rfl
@[simp] theorem State.loadProgram_count (s : State) (prog : List Tok) :
    (s.loadProgram prog).count = s.count := rfl
@[simp] theorem State.loadProgram_stages (s : State) (prog : List Tok) :
    (s.loadProgram prog).stages = s.stages := rfl
@[simp] theorem State.loadProgram_regs (s : State) (prog : List Tok) :
    (s.loadProgram prog).regs = s.regs := rfl
@[simp] theorem State.loadProgram_bt (s : State) (prog : List Tok) :
    (s.loadProgram prog).bt = s.bt := rfl
@[simp] theorem State.loadProgram_fault (s : State) (prog : List Tok) :
    (s.loadProgram prog).fault = s.fault := rfl
@[simp] theorem State.loadProgram_params (s : State) (prog : List Tok) :
    (s.loadProgram prog).params = s.params := rfl
@[simp] theorem State.loadProgram_prog (s : State) (prog : List Tok) :
    (s.loadProgram prog).prog = prog := rfl
@[simp] theorem State.loadProgram_loaded (s : State) (prog : List Tok) :
    (s.loadProgram prog).loaded = true := rfl
@[simp] theorem State.loadProgram_inputs (s : State) (prog : List Tok) :
    (s.loadProgram prog).inputs = s.inputs := rfl
@[simp] theorem State.loadProgram_edges (s : State) (prog : List Tok) :
    (s.loadProgram prog).edges = s.edges := rfl

/-! ### finishEdge -/

@[simp] theorem State.finishEdge_pc (s : State) :
    (s.finishEdge).pc = s.pc := rfl
@[simp] theorem State.finishEdge_count (s : State) :
    (s.finishEdge).count = s.count := rfl
@[simp] theorem State.finishEdge_stages (s : State) :
    (s.finishEdge).stages = s.stages := rfl
@[simp] theorem State.finishEdge_regs (s : State) :
    (s.finishEdge).regs = s.regs := rfl
@[simp] theorem State.finishEdge_bt (s : State) :
    (s.finishEdge).bt = s.bt := rfl
@[simp] theorem State.finishEdge_fault (s : State) :
    (s.finishEdge).fault = s.fault := rfl
@[simp] theorem State.finishEdge_params (s : State) :
    (s.finishEdge).params = s.params := rfl
@[simp] theorem State.finishEdge_prog (s : State) :
    (s.finishEdge).prog = s.prog := rfl
@[simp] theorem State.finishEdge_loaded (s : State) :
    (s.finishEdge).loaded = s.loaded := rfl
@[simp] theorem State.finishEdge_inputs (s : State) :
    (s.finishEdge).inputs = s.inputs.tail := rfl
@[simp] theorem State.finishEdge_edges (s : State) :
    (s.finishEdge).edges = s.edges + 1 := rfl

/-! ### Reads that an update of another field leaves -/

@[simp] theorem State.setEngine_readReg (s : State) (pc count : Nat) (stages : Stages) (bt : Bool) (i : Fin 32) :
    (s.setEngine pc count stages bt).readReg i = s.readReg i := rfl
@[simp] theorem State.setEngine_fetch (s : State) (pc count : Nat) (stages : Stages) (bt : Bool) (i : Nat) :
    (s.setEngine pc count stages bt).fetch i = s.fetch i := rfl
@[simp] theorem State.setEngine_faulted (s : State) (pc count : Nat) (stages : Stages) (bt : Bool) : (s.setEngine pc count stages bt).faulted = s.faulted := rfl
@[simp] theorem State.setRegs_fetch (s : State) (regs : Vector Value 32) (i : Nat) :
    (s.setRegs regs).fetch i = s.fetch i := rfl
@[simp] theorem State.setRegs_faulted (s : State) (regs : Vector Value 32) : (s.setRegs regs).faulted = s.faulted := rfl
@[simp] theorem State.setFault_readReg (s : State) (cause : FaultCause) (i : Fin 32) :
    (s.setFault cause).readReg i = s.readReg i := rfl
@[simp] theorem State.setFault_fetch (s : State) (cause : FaultCause) (i : Nat) :
    (s.setFault cause).fetch i = s.fetch i := rfl
@[simp] theorem State.loadProgram_readReg (s : State) (prog : List Tok) (i : Fin 32) :
    (s.loadProgram prog).readReg i = s.readReg i := rfl
@[simp] theorem State.loadProgram_faulted (s : State) (prog : List Tok) : (s.loadProgram prog).faulted = s.faulted := rfl
@[simp] theorem State.finishEdge_readReg (s : State) (i : Fin 32) :
    (s.finishEdge).readReg i = s.readReg i := rfl
@[simp] theorem State.finishEdge_fetch (s : State) (i : Nat) :
    (s.finishEdge).fetch i = s.fetch i := rfl
@[simp] theorem State.finishEdge_faulted (s : State) : (s.finishEdge).faulted = s.faulted := rfl

end Sys2Proof.Machine
end

