-- ==== Sys2Proof/Laws/Ops.lean ====
section
/-! SUPPORT. What each shared operation does, once, in the form the later proofs cite. -/

namespace Sys2Proof.Machine

/-! ### Status -/

theorem State.running_iff (s : State) : s.running = true ↔ s.pc < s.prog.length := by
  simp [State.running]

theorem State.halted_iff (s : State) : s.halted = true ↔ s.prog.length ≤ s.pc := by
  simp [State.halted]

theorem State.faulted_iff (s : State) : s.faulted = true ↔ s.fault ≠ .none := by
  simp [State.faulted]

theorem State.faulted_eq_false_iff (s : State) : s.faulted = false ↔ s.fault = .none := by
  simp [State.faulted]

theorem State.cycleEnabled_iff (s : State) :
    s.cycleEnabled = true ↔ s.fault = .none ∧ s.pc < s.prog.length := by
  simp [State.cycleEnabled, State.faulted, State.running]

/-- A running engine's fetch answers a token. -/
theorem State.fetch_of_running {s : State} (h : s.pc < s.prog.length) :
    s.fetch s.pc = some (s.prog[s.pc]'h) := by
  simp [State.fetch, h]

theorem State.lt_of_fetch {s : State} {i : Nat} {t : Tok} (h : s.fetch i = some t) :
    i < s.prog.length := (List.getElem?_eq_some_iff.mp h).1

/-! ### Register indices -/

theorem regOfIndex_eq_none_iff (index : Int) : regOfIndex index = none ↔ index < 0 ∨ 31 < index := by
  unfold regOfIndex
  split <;> simp <;> omega

@[simp] theorem regOfIndex_fin (i : Fin 32) : regOfIndex ((i : Nat) : Int) = some i := by
  have := i.isLt
  unfold regOfIndex
  rw [dif_pos (by omega)]
  simp

theorem regOfIndex_zero : regOfIndex 0 = some 0 := rfl

theorem eq_of_regOfIndex {index : Int} {i : Fin 32} (h : regOfIndex index = some i) :
    index = ((i : Nat) : Int) := by
  unfold regOfIndex at h
  split at h
  · simp only [Option.some.injEq] at h
    subst h
    simp
    omega
  · simp at h

theorem regOfIndex_of_inRange {index : Int} (h : indexInRange index = true) :
    ∃ i, regOfIndex index = some i := by
  simp only [indexInRange, decide_eq_true_eq] at h
  exact ⟨_, by unfold regOfIndex; rw [dif_pos h]⟩

theorem regOfIndex_of_not_inRange {index : Int} (h : indexInRange index = false) :
    regOfIndex index = none := by
  simp only [indexInRange, decide_eq_false_iff_not] at h
  unfold regOfIndex
  rw [dif_neg h]

/-! ### Register reads and writes -/

@[simp] theorem State.readReg_zero (s : State) : s.readReg 0 = 0 := rfl

/-- Reading after a write: the register written, but for `x0`, shows the value, every other one what it showed. -/
theorem State.readReg_writeReg (s : State) (i j : Fin 32) (v : Value) :
    (s.writeReg i v).readReg j = if j = i ∧ i ≠ 0 then v else s.readReg j := by
  unfold State.writeReg
  by_cases hi : i = 0
  · simp [hi]
  · by_cases hji : j = i
    · subst hji
      simp [hi, State.readReg]
    · have : (i : Nat) ≠ (j : Nat) := fun h => hji (Fin.ext h.symm)
      simp [hi, hji, State.readReg, this]

/-- A register write touches `RF` alone. -/
theorem State.writeReg_eq (s : State) (i : Fin 32) (v : Value) :
    ∃ regs, s.writeReg i v = s.setRegs regs := by
  unfold State.writeReg
  split
  · exact ⟨s.regs, rfl⟩
  · exact ⟨_, rfl⟩

theorem resetRegs_get (ps : Params) (e : Nat) (i : Fin 32) :
    (resetRegs ps e)[i] = if i = 0 then 0 else signedOfBits ps.xlen (Config.rfInit e i) := by
  simp [resetRegs]

/-- After a reset edge every register holds a signed `XLEN`-bit value. -/
theorem resetRegs_fits {ps : Params} (h : 1 ≤ ps.xlen) (e : Nat) (i : Fin 32) :
    fitsSigned ps.xlen (resetRegs ps e)[i] = true := by
  rw [resetRegs_get]
  split
  · exact fitsSigned_zero _
  · exact fitsSigned_signedOfBits h _

/-! ### The engine cycle -/

/-- The cycle in closed form (R68): both the taken and the sequential path lead to `PC + 1`. -/
theorem State.engineCycle_eq (s : State) (br : Bool) (tok : Tok) :
    s.engineCycle br tok = s.setEngine (s.pc + 1) (s.count + 1) (s.stages.shift (.full tok))
      (if br then false else s.bt) := by
  cases br <;> rfl

@[simp] theorem Stages.get_shift_IF (st : Stages) (f : Slot) : (st.shift f).get .IF = f := rfl
@[simp] theorem Stages.get_shift_ID (st : Stages) (f : Slot) : (st.shift f).get .ID = st.get .IF := rfl
@[simp] theorem Stages.get_shift_EX (st : Stages) (f : Slot) : (st.shift f).get .EX = st.get .ID := rfl
@[simp] theorem Stages.get_shift_MEM (st : Stages) (f : Slot) : (st.shift f).get .MEM = st.get .EX := rfl
@[simp] theorem Stages.get_shift_WB (st : Stages) (f : Slot) : (st.shift f).get .WB = st.get .MEM := rfl

/-! ### Faults and reset -/

theorem State.raise_of_unfaulted {s : State} (h : s.fault = .none) (c : FaultCause) :
    s.raise c = s.setFault c := by
  simp [State.raise, State.faulted, h]

theorem State.raise_of_faulted {s : State} (h : s.fault ≠ .none) (c : FaultCause) : s.raise c = s := by
  simp [State.raise, State.faulted, h]

/-- The fields after the reset event (R121). -/
@[simp] theorem State.applyReset_pc (s : State) : s.applyReset.pc = 0 := rfl
@[simp] theorem State.applyReset_count (s : State) : s.applyReset.count = 0 := rfl
@[simp] theorem State.applyReset_stages (s : State) : s.applyReset.stages = Stages.empty := rfl
@[simp] theorem State.applyReset_regs (s : State) : s.applyReset.regs = resetRegs s.params s.edges := rfl
@[simp] theorem State.applyReset_bt (s : State) : s.applyReset.bt = false := rfl
@[simp] theorem State.applyReset_fault (s : State) : s.applyReset.fault = .none := rfl
@[simp] theorem State.applyReset_params (s : State) : s.applyReset.params = s.params := rfl
@[simp] theorem State.applyReset_prog (s : State) : s.applyReset.prog = s.prog := rfl
@[simp] theorem State.applyReset_loaded (s : State) : s.applyReset.loaded = s.loaded := rfl
@[simp] theorem State.applyReset_inputs (s : State) : s.applyReset.inputs = s.inputs := rfl
@[simp] theorem State.applyReset_edges (s : State) : s.applyReset.edges = s.edges := rfl

end Sys2Proof.Machine
end

