-- ==== Sys2Proof/Laws/Exec.lean ====
section
/-! SUPPORT. What each instruction's meaning answers, and what none of them changes. -/

namespace Sys2Proof.Machine

/-- The state after CYCLE: the cycle with the fetched token and its class when enabled, the same state otherwise. -/
def State.cycleNext (s : State) : State :=
  if s.cycleEnabled then
    match s.fetch s.pc with
    | some t => s.engineCycle (isBranch s.params t) t
    | none => s
  else s

theorem State.cycleNext_of_enabled {s : State} {t : Tok} (h : s.cycleEnabled = true)
    (hf : s.fetch s.pc = some t) : s.cycleNext = s.engineCycle (isBranch s.params t) t := by
  simp [State.cycleNext, h, hf]

theorem State.cycleNext_of_disabled {s : State} (h : s.cycleEnabled = false) : s.cycleNext = s := by
  simp [State.cycleNext, h]

/-- A cycle writes at most `PC`, `COUNT`, `STAGE` and `BT`. -/
theorem State.cycleNext_eq (s : State) :
    ∃ pc count stages bt, s.cycleNext = s.setEngine pc count stages bt := by
  unfold State.cycleNext
  split
  · split
    · exact ⟨_, _, _, _, s.engineCycle_eq _ _⟩
    · exact ⟨s.pc, s.count, s.stages, s.bt, rfl⟩
  · exact ⟨s.pc, s.count, s.stages, s.bt, rfl⟩

theorem exec_reset (s : State) : exec .reset s = .next s.applyReset := rfl

theorem exec_branchToken (p : Tok) (s : State) :
    exec (.branchToken p) s = .next (if s.cycleEnabled then s.engineCycle true p else s) := rfl

theorem exec_nonbranchToken (p : Tok) (s : State) :
    exec (.nonbranchToken p) s = .next (if s.cycleEnabled then s.engineCycle false p else s) := rfl

theorem exec_cycle (s : State) : exec .cycle s = .next s.cycleNext := by
  show execCycle s = _
  unfold execCycle State.cycleNext
  by_cases h : s.cycleEnabled = true
  · simp only [h, if_true]
    cases s.fetch s.pc with
    | none => rfl
    | some t => cases hb : isBranch s.params t <;> simp [classify, hb, execBranchToken, execNonbranchToken, h]
  · simp [h]

theorem exec_rfRead (index : Int) (s : State) :
    exec (.rfRead index) s = .next (if (regOfIndex index).isSome then s else s.raise .regReadIndex) := by
  show execRfRead index s = _
  unfold execRfRead
  cases regOfIndex index <;> rfl

theorem exec_rfWrite (index : Int) (v : Value) (s : State) (h : s.fault = .none) :
    exec (.rfWrite index v) s =
      .next (match regOfIndex index with
        | some i => s.writeReg i v
        | none => s.setFault .regWriteIndex) := by
  show execRfWrite index v s = _
  have hf : s.faulted = false := s.faulted_eq_false_iff.mpr h
  unfold execRfWrite
  rw [hf]
  cases regOfIndex index with
  | none => simp [State.raise_of_unfaulted h]
  | some i => rfl

theorem exec_rfWrite_faulted (index : Int) (v : Value) (s : State) (h : s.fault ≠ .none) :
    exec (.rfWrite index v) s = .next s := by
  show execRfWrite index v s = _
  have hf : s.faulted = true := s.faulted_iff.mpr h
  simp [execRfWrite, hf]

theorem exec_rfRead_faulted (index : Int) (s : State) (h : s.fault ≠ .none) :
    exec (.rfRead index) s = .next s := by
  rw [exec_rfRead, State.raise_of_faulted h]
  simp

end Sys2Proof.Machine
end

