-- ==== Sys2Proof/Laws/Edge.lean ====
section
/-! SUPPORT. What one edge does, once: the inversion of `step`, in the three cases of R112. -/

namespace Sys2Proof.Machine

open Sys2Proof.Safety

/-- The register-file ports' effect at an edge with no fault recorded before it (R86, R87, R89). -/
def State.portsNext (e : EdgeInput) (s : State) : State :=
  if badWrite e then s.setFault .regWriteIndex
  else if badRead e then s.setFault .regReadIndex
  else if e.rfWe then
    match regOfIndex e.rfWaddr with
    | some i => s.writeReg i e.rfWdata
    | none => s
  else s

/-- The ports write at most `RF` and `FAULT`. -/
theorem State.portsNext_eq (e : EdgeInput) (s : State) :
    ∃ regs fault, s.portsNext e = (s.setRegs regs).setFault fault := by
  unfold State.portsNext
  split
  · exact ⟨s.regs, _, rfl⟩
  · split
    · exact ⟨s.regs, _, rfl⟩
    · split
      · split
        · obtain ⟨r, h⟩ := s.writeReg_eq ‹_› e.rfWdata
          exact ⟨r, s.fault, by rw [h]; rfl⟩
        · exact ⟨s.regs, s.fault, rfl⟩
      · exact ⟨s.regs, s.fault, rfl⟩

theorem runOps_cons_next {i : Instr} {s t : State} (h : exec i s = .next t) (l : List Instr) :
    runOps (i :: l) s = runOps l t := by
  simp [runOps, h]

theorem runOps_append {l m : List Instr} {s t : State} (h : runOps l s = .next t) :
    runOps (l ++ m) s = runOps m t := by
  induction l generalizing s with
  | nil => simp only [runOps, Host.Outcome.next.injEq] at h; simp [h]
  | cons i l ih =>
    simp only [runOps, List.cons_append] at h ⊢
    cases hi : exec i s with
    | next u => rw [hi] at h; exact ih h
    | fault r => simp [hi] at h
    | refused r => simp [hi] at h

/-- The port operations of an edge, run in the decoder's order, have R89's outcome. -/
theorem runOps_ports (e : EdgeInput) (s : State) (h : s.fault = .none) :
    runOps (if indexInRange e.rfWaddr
      then (if e.rfRe then [Instr.rfRead e.rfRaddr] else []) ++
        (if e.rfWe then [Instr.rfWrite e.rfWaddr e.rfWdata] else [])
      else (if e.rfWe then [Instr.rfWrite e.rfWaddr e.rfWdata] else []) ++
        (if e.rfRe then [Instr.rfRead e.rfRaddr] else [])) s = .next (s.portsNext e) := by
  have hr := exec_rfRead e.rfRaddr s
  have hw := exec_rfWrite e.rfWaddr e.rfWdata s h
  have hfr : (s.setFault .regReadIndex).fault ≠ .none := by simp
  have hfw : (s.setFault .regWriteIndex).fault ≠ .none := by simp
  have hwf := exec_rfWrite_faulted e.rfWaddr e.rfWdata _ hfr
  have hrf := exec_rfRead_faulted e.rfRaddr _ hfw
  rw [State.raise_of_unfaulted h] at hr
  cases hwi : indexInRange e.rfWaddr with
  | true =>
    obtain ⟨i, hi⟩ := regOfIndex_of_inRange hwi
    rw [hi] at hw
    cases hri : indexInRange e.rfRaddr with
    | true =>
      obtain ⟨j, hj⟩ := regOfIndex_of_inRange hri
      rw [hj] at hr
      cases hre : e.rfRe <;> cases hwe : e.rfWe <;>
        simp_all [State.portsNext, badRead, badWrite, runOps]
    | false =>
      rw [regOfIndex_of_not_inRange hri] at hr
      cases hre : e.rfRe <;> cases hwe : e.rfWe <;>
        simp_all [State.portsNext, badRead, badWrite, runOps]
  | false =>
    rw [regOfIndex_of_not_inRange hwi] at hw
    cases hri : indexInRange e.rfRaddr with
    | true =>
      obtain ⟨j, hj⟩ := regOfIndex_of_inRange hri
      rw [hj] at hr
      cases hre : e.rfRe <;> cases hwe : e.rfWe <;>
        simp_all [State.portsNext, badRead, badWrite, runOps]
    | false =>
      rw [regOfIndex_of_not_inRange hri] at hr
      cases hre : e.rfRe <;> cases hwe : e.rfWe <;>
        simp_all [State.portsNext, badRead, badWrite, runOps]

theorem State.cycleNext_fault (s : State) : s.cycleNext.fault = s.fault := by
  obtain ⟨_, _, _, _, h⟩ := s.cycleNext_eq
  rw [h]; rfl

/-- At an edge without reset the host changes no program, or the edge is refused. -/
theorem State.presented_of_no_reset {s : State} (hp : s.edgeRefusal = none) (h : s.input.rst = false) :
    s.presented = s := by
  unfold State.edgeRefusal loadAllowed at hp
  unfold State.presented
  cases hl : s.input.load with
  | none => rfl
  | some p => simp [h, hl] at hp

/-- An edge the host may not present is refused. -/
theorem step_of_refusal {s : State} {r : Refusal} (h : s.edgeRefusal = some r) : step s = .refused r := by
  simp [step, edge, h]

/-- The input ports' values are not part of what a program change touches. -/
@[simp] theorem State.presented_input (s : State) : s.presented.input = s.input := by
  unfold State.presented State.input
  cases hi : s.inputs with
  | nil => cases hl : s.loaded <;> simp [hi, hl, EdgeInput.idle, EdgeInput.held]
  | cons e l => cases hl : e.load <;> simp [hi, hl, State.loadProgram]

/-- A presented program touches `prog` and `loaded` alone. -/
@[simp] theorem State.presented_params (s : State) : s.presented.params = s.params := by
  unfold State.presented; split <;> rfl

@[simp] theorem State.presented_inputs (s : State) : s.presented.inputs = s.inputs := by
  unfold State.presented; split <;> rfl

@[simp] theorem State.presented_faulted (s : State) : s.presented.faulted = s.faulted := by
  unfold State.presented; split <;> rfl

/-- An edge is presentable exactly when none of the host's duties is broken (R101). -/
theorem State.edgeRefusal_eq_none_iff (s : State) :
    s.edgeRefusal = none ↔ loadAllowed s.input = true ∧ releaseAllowed s.loaded s.input = true ∧
      programFits s.params s.presented.prog = true ∧ tokensFit s.params s.presented.prog = true ∧
      writeDataFits s.params s.input = true := by
  unfold State.edgeRefusal
  cases loadAllowed s.input <;> cases releaseAllowed s.loaded s.input <;>
    cases programFits s.params s.presented.prog <;> cases tokensFit s.params s.presented.prog <;>
    cases writeDataFits s.params s.input <;> simp

/-- A reset edge (R121). -/
theorem step_of_reset {s : State} (hp : s.edgeRefusal = none) (h : s.input.rst = true) :
    step s = .next s.presented.applyReset.finishEdge := by
  simp [step, edge, hp, State.selected, decodePorts, h, runOps, exec_reset, finishOutcome]

/-- An edge without reset while the block is faulted (R107). -/
theorem step_of_faulted {s : State} (hp : s.edgeRefusal = none) (h : s.input.rst = false)
    (hf : s.fault ≠ .none) : step s = .next s.finishEdge := by
  have hf' := s.faulted_iff.mpr hf
  simp [step, edge, hp, State.presented_of_no_reset hp h, State.selected, decodePorts, h, hf', runOps,
    finishOutcome]

/-- An edge without reset of an unfaulted block: the cycle and the ports, each from the old state (R112). -/
theorem step_of_unfaulted {s : State} (hp : s.edgeRefusal = none) (h : s.input.rst = false)
    (hf : s.fault = .none) : step s = .next (s.cycleNext.portsNext s.input).finishEdge := by
  have hf' := s.faulted_eq_false_iff.mpr hf
  have hports := runOps_ports s.input s.cycleNext (s.cycleNext_fault.trans hf)
  have hcyc : runOps (if s.running then [Instr.cycle] else []) s = .next s.cycleNext := by
    cases hr : s.running with
    | true => simp [runOps, exec_cycle]
    | false => simp [runOps, State.cycleNext, State.cycleEnabled, hr]
  have hops : runOps s.selected s = .next (s.cycleNext.portsNext s.input) := by
    unfold State.selected decodePorts
    simp only [h, hf']
    exact (runOps_append hcyc).trans hports
  simp [step, edge, hp, State.presented_of_no_reset hp h, hops, finishOutcome]

/-- Everything an edge can answer. -/
theorem step_cases {s t : State} (h : step s = .next t) :
    s.edgeRefusal = none ∧
    ((s.input.rst = true ∧ t = s.presented.applyReset.finishEdge) ∨
     (s.input.rst = false ∧ s.fault ≠ .none ∧ t = s.finishEdge) ∨
     (s.input.rst = false ∧ s.fault = .none ∧ t = (s.cycleNext.portsNext s.input).finishEdge)) := by
  have hp : s.edgeRefusal = none := by
    cases hr : s.edgeRefusal with
    | none => rfl
    | some r => rw [step_of_refusal hr] at h; simp at h
  refine ⟨hp, ?_⟩
  cases hrst : s.input.rst with
  | true =>
    rw [step_of_reset hp hrst, Host.Outcome.next.injEq] at h
    exact .inl ⟨rfl, h.symm⟩
  | false =>
    by_cases hf : s.fault = .none
    · rw [step_of_unfaulted hp hrst hf, Host.Outcome.next.injEq] at h
      exact .inr (.inr ⟨rfl, hf, h.symm⟩)
    · rw [step_of_faulted hp hrst hf, Host.Outcome.next.injEq] at h
      exact .inr (.inl ⟨rfl, hf, h.symm⟩)

end Sys2Proof.Machine
end

