-- ==== Sys2Proof/Laws/Run.lean ====
section
/-! SUPPORT. Runs and traces, one edge at a time. -/

namespace Sys2Proof.Machine

theorem run_zero (s : State) : run 0 s = .next s := rfl

theorem run_succ_of_step {s t : State} (h : step s = .next t) (k : Nat) :
    run (k + 1) s = run k t := by
  simp [run, h]

/-- A run that cannot begin has no next state. -/
theorem run_of_stop {s t : State} (k : Nat) (h : ∀ t, step s ≠ .next t) : run (k + 1) s ≠ .next t := by
  cases hs : step s with
  | next t => exact absurd hs (h t)
  | fault r => simp [run, hs]
  | refused r => simp [run, hs]

/-- The host's own run of the machine is this one. -/
theorem core_run_eq (k : Nat) (s : State) : Sys2Proof.core.run k s = run k s := by
  induction k generalizing s with
  | zero => rfl
  | succ k ih =>
    cases hs : step s with
    | next t =>
      have h' : Sys2Proof.core.step s = .next t := hs
      simp only [Host.Core.run, run, h', hs]
      exact ih t
    | fault r =>
      have h' : Sys2Proof.core.step s = .fault r := hs
      simp only [Host.Core.run, run, h', hs]
      rfl
    | refused r =>
      have h' : Sys2Proof.core.step s = .refused r := hs
      simp only [Host.Core.run, run, h', hs]
      rfl

theorem trace_zero (s : State) : trace 0 s = [] := rfl

theorem trace_succ_of_step {s t : State} (h : step s = .next t) (k : Nat) :
    trace (k + 1) s = (reportOf s t).toList ++ trace k t := by
  simp [trace, h]

theorem trace_of_stop {s : State} (k : Nat) (h : ∀ t, step s ≠ .next t) : trace k s = [] := by
  cases k with
  | zero => rfl
  | succ k =>
    cases hs : step s with
    | next t => exact absurd hs (h t)
    | fault r => simp [trace, hs]
    | refused r => simp [trace, hs]

end Sys2Proof.Machine
end

