-- ==== Sys2Proof/Tests/Slice0.lean ====
section
/-!
SUPPORT. The model's own tests: the vectors of `spec/95_test_vectors.md` (named in each comment) as one step or one operation on
a small state, and for every statement with hypotheses a state that meets them together.
-/

namespace Sys2Proof.Tests

open Sys2Proof.Machine Sys2Proof.Safety

/-! ### Small states -/

/-- The instantiation of decision D33 (`BRANCH_MARKER = "BR"`, `EMPTY_MARK = "-"`, `PCW = 8`, `XLEN = 32`), with 8-bit
payloads: 1 = "ADD", 2 = "BR L1", 3 = "br L1", 4 = "NOP", 5 = "xBRy", 6 = "". -/
def ps : Params where
  tokw := 8
  pcw := 8
  xlen := 32
  branchMarker := "BR".toList
  emptyMark := "-".toList
  texts := [(1, "ADD".toList), (2, "BR L1".toList), (3, "br L1".toList), (4, "NOP".toList), (5, "xBRy".toList)]

/-- A small state: after `pc` undisturbed cycles of `prog`, every register zero but `x3 = 4`, the given inputs next. -/
def mk (prog : List Tok) (pc : Nat) (inputs : List EdgeInput := []) (fault : FaultCause := .none) : State where
  pc := pc
  count := pc
  stages := ⟨expectedSlot prog pc 0, expectedSlot prog pc 1, expectedSlot prog pc 2, expectedSlot prog pc 3,
    expectedSlot prog pc 4⟩
  regs := (Vector.replicate 32 0).set 3 4
  bt := false
  fault := fault
  params := ps
  prog := prog
  loaded := true
  inputs := inputs
  edges := 7

/-- The outcome is a next state with a property. -/
def nextIs (o : Host.Outcome State Fault Refusal) (f : State → Bool) : Bool :=
  match o with
  | .next t => f t
  | .fault _ => false
  | .refused _ => false

/-- The outcome is a given refusal. -/
def refusedAs (o : Host.Outcome State Fault Refusal) (r : Refusal) : Bool :=
  match o with
  | .next _ => false
  | .fault _ => false
  | .refused q => decide (q = r)

/-! ### WellFormed: one ill-formed term for each check -/

theorem test_wf_branch_too_wide : wellFormed { ps with branchMarker := [] } (.branchToken 256) = false := by decide
theorem test_wf_branch_class : wellFormed ps (.branchToken 1) = false := by decide
theorem test_wf_branch_ok : wellFormed ps (.branchToken 2) = true := by decide
theorem test_wf_nonbranch_too_wide : wellFormed ps (.nonbranchToken 256) = false := by decide
theorem test_wf_nonbranch_class : wellFormed ps (.nonbranchToken 2) = false := by decide
theorem test_wf_nonbranch_ok : wellFormed ps (.nonbranchToken 255) = true := by decide
theorem test_wf_write_too_wide : wellFormed ps (.rfWrite 1 2147483648) = false := by decide
theorem test_wf_write_limits :
    wellFormed ps (.rfWrite 1 2147483647) = true ∧ wellFormed ps (.rfWrite 1 (-2147483648)) = true := by decide
theorem test_wf_program_too_long : programFits { ps with pcw := 1 } [1, 1] = false := by decide
theorem test_wf_token_too_wide : tokensFit ps [1, 256] = false := by decide
theorem test_wf_write_data :
    writeDataFits ps { rfWe := true, rfWaddr := 1, rfWdata := -2147483649 } = false := by decide
theorem test_wf_load_in_run : loadAllowed { load := some [1] } = false := by decide
theorem test_wf_release : releaseAllowed false {} = false ∧ releaseAllowed false { rst := true } = true := by decide
theorem test_wf_params : paramsOk { ps with tokw := 0 } = false ∧ paramsOk { ps with xlen := 0 } = false := by decide

/-! ### Classification: vectors V-ENC-1 to V-ENC-9 -/

theorem test_contains_start : containsText "BR L1".toList "BR".toList = true := by decide
theorem test_contains_inside : containsText "xBRy".toList "BR".toList = true := by decide
theorem test_contains_end : containsText "JMP BR".toList "BR".toList = true := by decide
theorem test_contains_twice : containsText "BRBR".toList "BR".toList = true := by decide
theorem test_contains_other_case : containsText "br L1".toList "BR".toList = false := by decide
theorem test_contains_mixed_case : containsText "Br L1".toList "BR".toList = false := by decide
theorem test_contains_not_contiguous : containsText "B R".toList "BR".toList = false := by decide
theorem test_contains_empty_text : containsText [] "BR".toList = false := by decide
theorem test_contains_empty_marker : containsText "ADD".toList [] = true := by decide

/-! ### Decode: words written out from the formats of R47, R48 and the port rows -/

/-- `TOKW = 8`: bit 8 is `BR`, bits 7:0 the payload. -/
theorem test_decode_branch_word : decodeTableWord 9 0b100000010 = some (.branchToken 0b10) := rfl
theorem test_decode_nonbranch_word : decodeTableWord 9 0b000000100 = some (.nonbranchToken 0b100) := rfl
theorem test_decode_too_wide : decodeTableWord 9 0b1000000100 = none := rfl
theorem test_decode_fetched : decodeToken ps 2 = .branchToken 2 ∧ decodeToken ps 3 = .nonbranchToken 3 := by decide
theorem test_decode_reset_alone :
    decodePorts false true { rst := true, rfRe := true, rfWe := true } = [.reset] := by decide
theorem test_decode_cycle_alone : decodePorts false true EdgeInput.idle = [.cycle] := by decide
theorem test_decode_read : decodePorts false false { rfRe := true, rfRaddr := -1 } = [.rfRead (-1)] := by decide
theorem test_decode_write :
    decodePorts false false { rfWe := true, rfWaddr := 31, rfWdata := -1 } = [.rfWrite 31 (-1)] := by decide
theorem test_slot_word :
    Slot.ofWord 8 0b100000111 = .full 7 ∧ Slot.ofWord 8 0b000000111 = .empty := by decide

/-! ### The tokens and the cycle -/

/-- R69's example: `PC = 2`, a branch-classified token. -/
theorem test_branchToken :
    nextIs (exec (.branchToken 2) (mk [1, 4, 2] 2)) (fun t =>
      decide (t.pc = 3 ∧ t.count = 3 ∧ t.bt = false ∧ t.stages = ⟨.full 2, .full 4, .full 1, .empty, .empty⟩))
      = true := by decide
/-- A branch-classified token overwrites a `BT` of true, which no reachable state has (R63). -/
theorem test_branchToken_bt :
    nextIs (exec (.branchToken 2) { mk [1, 4, 2] 2 with bt := true }) (fun t => decide (t.bt = false)) = true := by
  decide
/-- R70's example: `PC = 0`, all slots empty. -/
theorem test_nonbranchToken :
    nextIs (exec (.nonbranchToken 1) (mk [1] 0)) (fun t =>
      decide (t.pc = 1 ∧ t.count = 1 ∧ t.stages = ⟨.full 1, .empty, .empty, .empty, .empty⟩)) = true := by decide
/-- R70: the control unit is not referenced; the decision does not reach the PC update (R65). -/
theorem test_nonbranchToken_bt :
    nextIs (exec (.nonbranchToken 1) { mk [1] 0 with bt := true }) (fun t =>
      decide (t.bt = true ∧ t.pc = 1)) = true := by decide
/-- V-CYC-2: a full pipeline, the old WB dropped. -/
theorem test_cycle_full :
    nextIs (exec .cycle (mk [10, 11, 12, 13, 14, 15, 16, 17, 18, 19] 6)) (fun t =>
      decide (t.pc = 7 ∧ t.count = 7 ∧ t.stages = ⟨.full 16, .full 15, .full 14, .full 13, .full 12⟩)) = true := by
  decide
/-- V-CYC-3: a branch as the last instruction halts the engine and does not redirect it. -/
theorem test_cycle_last_branch :
    nextIs (exec .cycle (mk [1, 1, 1, 1, 1, 1, 1, 2] 7)) (fun t =>
      decide (t.pc = 8 ∧ t.bt = false ∧ t.halted = true ∧ t.stages.IF = .full 2)) = true := by decide
/-- V-CYC-6: a halted engine holds. -/
theorem test_step_halted :
    nextIs (step (mk [1, 4, 2] 3)) (fun t =>
      decide (t.pc = 3 ∧ t.count = 3 ∧ t.stages = ⟨.full 2, .full 4, .full 1, .empty, .empty⟩)) = true := by decide
/-- V-CYC-7: a faulted block holds. -/
theorem test_step_faulted :
    nextIs (step (mk [1, 1, 1, 1, 1] 2 [] .regWriteIndex)) (fun t =>
      decide (t.pc = 2 ∧ t.count = 2 ∧ t.fault = .regWriteIndex)) = true := by decide
/-- V-CYC-5 and V-RF-14: reset with a write at the same edge. -/
theorem test_step_reset :
    nextIs (step (mk [1, 2, 3, 4] 3 [{ rst := true, rfWe := true, rfWaddr := 7, rfWdata := 3 }])) (fun t =>
      decide (t.pc = 0 ∧ t.count = 0 ∧ t.stages = Stages.empty ∧ t.bt = false ∧ t.fault = .none ∧
        t.readReg 0 = 0)) = true := by decide
/-- RESET leaves a fault. -/
theorem test_reset_clears_fault :
    nextIs (exec .reset (mk [1] 1 [] .regReadIndex)) (fun t => decide (t.fault = .none ∧ t.pc = 0)) = true := by decide

/-! ### The control unit: V-CU-1 to V-CU-4 -/

theorem test_resolve : resolveBranch false = false ∧ resolveBranch true = false := by decide
theorem test_redirect : redirect 0 = 1 ∧ redirect 7 = 8 := by decide

/-! ### The register file -/

/-- V-RF-4 and V-RF-6: the write to `x0` and the write to −1, which is not `x31`. -/
theorem test_write_zero_and_negative :
    nextIs (exec (.rfWrite 0 123) (mk [1] 0)) (fun t => decide (t.portRead 0 = 0 ∧ t.fault = .none)) = true ∧
    nextIs (exec (.rfWrite (-1) 1) (mk [1] 0)) (fun t =>
      decide (t.portRead 31 = 0 ∧ t.fault = .regWriteIndex)) = true := by decide
/-- V-RF-2: the most negative 32-bit value in `x31`. -/
theorem test_write_limit :
    nextIs (exec (.rfWrite 31 (-2147483648)) (mk [1] 0)) (fun t =>
      decide (t.portRead 31 = -2147483648 ∧ t.portRead 30 = 0 ∧ t.portRead 3 = 4)) = true := by decide
/-- V-RF-7 and V-RF-8: the reads of 32 and −1. -/
theorem test_read_out_of_range :
    nextIs (exec (.rfRead 32) (mk [1] 0)) (fun t => decide (t.fault = .regReadIndex)) = true ∧
    nextIs (exec (.rfRead (-1)) (mk [1] 0)) (fun t => decide (t.fault = .regReadIndex)) = true := by decide
/-- R84: a read in range, and `x0`. -/
theorem test_read : (mk [1] 0).portRead 3 = 4 ∧ (mk [1] 0).portRead 0 = 0 ∧
    nextIs (exec (.rfRead 31) (mk [1] 0)) (fun t => decide (t = mk [1] 0)) = true := by decide
/-- V-RF-9: the read in the cycle of a write shows the old value. -/
theorem test_read_during_write :
    let s := mk [1] 1 [{ rfRe := true, rfRaddr := 3, rfWe := true, rfWaddr := 3, rfWdata := 9 }]
    s.outputs.rfRdata = 4 ∧ nextIs (step s) (fun t => decide (t.portRead 3 = 9)) = true := by decide
/-- V-RF-10: both ports out of range. -/
theorem test_two_bad_ports :
    nextIs (step (mk [1] 1 [{ rfRe := true, rfRaddr := 40, rfWe := true, rfWaddr := -5, rfWdata := 1 }]))
      (fun t => decide (t.fault = .regWriteIndex)) = true := by decide
/-- V-RF-11: a bad read suppresses an in-range write. -/
theorem test_bad_read_suppresses_write :
    nextIs (step (mk [1] 1 [{ rfRe := true, rfRaddr := 99, rfWe := true, rfWaddr := 4, rfWdata := 8 }]))
      (fun t => decide (t.fault = .regReadIndex ∧ t.portRead 4 = 0)) = true := by decide
/-- V-RF-13: a write while a fault is recorded. -/
theorem test_faulted_write :
    nextIs (exec (.rfWrite 7 3) (mk [1] 1 [] .regReadIndex)) (fun t =>
      decide (t.fault = .regReadIndex ∧ t.portRead 7 = 0)) = true := by decide
/-- V-RF-15: the cycle at the edge of a bad write is performed. -/
theorem test_bad_write_beside_cycle :
    nextIs (step (mk [1, 1, 1, 1] 1 [{ rfWe := true, rfWaddr := 32 }])) (fun t =>
      decide (t.pc = 2 ∧ t.fault = .regWriteIndex)) = true := by decide

/-! ### Refusals -/

theorem test_refuses_long_program :
    refusedAs (step { mk [1, 1] 0 with params := { ps with pcw := 1 } }) .programTooLong = true := by decide
theorem test_refuses_wide_token : refusedAs (step (mk [256] 0)) .tokenTooWide = true := by decide
theorem test_refuses_wide_value :
    refusedAs (step (mk [1] 0 [{ rfWe := true, rfWaddr := 1, rfWdata := 2147483648 }])) .valueTooWide = true := by decide
theorem test_refuses_release_unloaded :
    refusedAs (step { mk [] 0 [{}] with loaded := false }) .resetReleasedUnloaded = true := by decide
theorem test_refuses_program_change :
    refusedAs (step (mk [1] 0 [{ load := some [] }])) .programChangedInRun = true := by decide

/-! ### Reports: V-REP-1 to V-REP-5 -/

theorem test_stage_lines :
    (mk [1] 1).stageLine .IF = "IF: ADD".toList ∧ (mk [1] 1).stageLine .MEM = "MEM: -".toList := by decide
theorem test_full_slot_with_mark_text :
    let s := { mk [1] 1 with params := { ps with texts := [(1, "-".toList)] }, stages := ⟨.empty, .empty, .empty, .empty, .full 1⟩ }
    s.stageLine .WB = "WB: -".toList ∧ s.stages.WB ≠ .empty := by decide
/-- V-REP-5 but for the header's text, which is open. -/
theorem test_report_lines : (mk [1] 1).reportLines.tail =
    ["IF: ADD".toList, "ID: -".toList, "EX: -".toList, "MEM: -".toList, "WB: -".toList, []] := by decide
/-- W8: the empty program has no report and the count 0. -/
theorem test_empty_program : (mk [] 0).finalCount = some 0 ∧ trace 1 (mk [] 0) = [] := by decide
/-- R102: reset held without a load gives no final count, and the default host holds it. -/
theorem test_unloaded_block :
    let s := { mk [] 0 with loaded := false }
    s.finalCount = none ∧ nextIs (step s) (fun t => decide (t.finalCount = none ∧ t.pc = 0)) = true := by decide
/-- A halted run's count is still shown in the cycle in which the host asserts reset again (R97). -/
theorem test_final_count_beside_reset : (mk [1] 1 [{ rst := true }]).finalCount = some 1 := by decide
/-- P4 at e4: a fault leaves no final count. -/
theorem test_faulted_final_count : (mk [1] 1 [] .regWriteIndex).finalCount = none := by decide

/-! ### Placing a table word -/

theorem test_placed_branch_word :
    nextIs (step (State.reset.withFetchWord 9 0b100000010)) (fun t =>
      decide (t.pc = 1 ∧ t.stages.IF = .full 2 ∧ t.bt = false)) = true := by decide
theorem test_placed_nonbranch_word :
    nextIs (step ({ mk [] 0 with bt := true }.withFetchWord 9 0b000000010)) (fun t =>
      decide (t.pc = 1 ∧ t.stages.IF = .full 2 ∧ t.bt = true)) = true := by decide

/-! ### Witnesses: states that meet the statements' hypotheses -/

theorem test_witness_StepRunsTheFetchedInstruction :
    let s := mk [1, 2] 1
    s.edgeRefusal = none ∧ s.input.rst = false ∧ s.input.rfRe = false ∧ s.input.rfWe = false ∧
      s.fault = .none ∧ s.fetch s.pc = some 2 := by decide

theorem test_witness_StepRunsTheSelectedOperations :
    (mk [1, 2] 1 [{ rfRe := true, rfRaddr := 3 }]).edgeRefusal = none := by decide

/-- One state for each clause. -/
theorem test_witness_EdgeActsOnTheStateBeforeIt :
    (let s := mk [1, 2] 1 [{ rst := true }]; s.edgeRefusal = none ∧ s.input.rst = true) ∧
    (let s := mk [1, 2] 1 [] .regReadIndex;
      s.edgeRefusal = none ∧ s.input.rst = false ∧ s.fault ≠ .none) ∧
    (let s := mk [1, 2] 1 [{ rfWe := true, rfWaddr := 31, rfWdata := -1 }];
      s.edgeRefusal = none ∧ s.input.rst = false ∧ s.fault = .none ∧ badWrite s.input = false) ∧
    (let s := mk [1, 2] 1 [{ rfWe := true, rfWaddr := 32, rfRe := true, rfRaddr := -1 }];
      s.edgeRefusal = none ∧ s.input.rst = false ∧ s.fault = .none ∧ badWrite s.input = true ∧
        badRead s.input = true) := by decide

theorem test_witness_NothingEndsTheMachine : (mk [1, 2] 2).edgeRefusal = none := by decide

theorem test_witness_UnpresentableProgramsAreRefused :
    (let s := { mk [1, 1] 0 with params := { ps with pcw := 1 } };
      loadAllowed s.input = true ∧ releaseAllowed s.loaded s.input = true ∧ 2 ^ s.params.pcw - 1 < s.presented.prog.length) ∧
    (let s := mk [1] 0 [{ load := some [] }]; s.input.rst = false ∧ s.input.load ≠ none) ∧
    (let s := { mk [] 0 [{}] with loaded := false };
      s.loaded = false ∧ s.input.rst = false ∧ s.input.load = none) := by decide

/-- Held by the default host, and by entries that hold it. -/
theorem test_witness_HeldResetProducesNothing :
    (let s := mk [1] 1 [{ rst := true }, { rst := true }];
      s.input.rst = true ∧ nextIs (step s) (fun t => t.input.rst) = true) ∧
    (let s := { mk [] 0 [{ rst := true, rfWe := true }] with loaded := false };
      s.loaded = false ∧ s.prog = [] ∧ ∀ e ∈ s.inputs, e.rst = true ∧ e.load = none) := by decide

/-- For BranchTokenRuns, NonbranchTokenRuns and TokenClassChangesOnlyBt. -/
theorem test_witness_token_runs :
    let s := mk [1, 2] 1
    s.fault = .none ∧ s.pc < s.prog.length := by decide

/-- For CycleRuns and CycleRunsTheClassOfItsToken. -/
theorem test_witness_cycle_runs :
    let s := mk [1, 2] 1
    s.fault = .none ∧ s.fetch s.pc = some 2 := by decide

theorem test_witness_DisabledCycleHolds :
    (mk [1, 2] 1 [] .regReadIndex).fault ≠ .none ∧ (mk [1, 2] 2).prog.length ≤ (mk [1, 2] 2).pc := by decide

theorem test_witness_StepCyclesExactlyWhenEnabled :
    (let s := mk [1, 2] 1;
      s.edgeRefusal = none ∧ s.input.rst = false ∧ s.fault = .none ∧ s.pc < s.prog.length) ∧
    (let s := mk [1, 2] 2;
      s.edgeRefusal = none ∧ s.input.rst = false ∧ ¬ (s.fault = .none ∧ s.pc < s.prog.length)) := by decide

theorem test_witness_BranchMarkerIsUnobservable :
    (mk [1, 2] 1).bt = false ∧ ∃ t, run 1 (mk [1, 2] 1) = .next t := ⟨by decide, _, rfl⟩

/-- The last cycle in which a token can still reach WB. -/
theorem test_witness_TokenReachesEachStageInTurn :
    let s := mk [1, 2, 3, 4, 5] 0 [{ rfWe := true, rfWaddr := 31, rfWdata := -1 }, { rfRe := true, rfRaddr := 0 }]
    Uninterrupted s ∧ s.fetch s.pc = some 1 ∧ s.pc + place .WB + 1 ≤ s.prog.length :=
  ⟨⟨rfl, rfl, by decide, by decide, by decide⟩, by decide, by decide⟩

theorem test_witness_UndisturbedRunHalts :
    let s := mk [1, 2, 3] 1
    Undisturbed s ∧ s.pc ≤ s.prog.length := ⟨⟨rfl, rfl, rfl, by decide, by decide⟩, by decide⟩

theorem test_witness_BootedProgramRunsToItsCount :
    let s := mk [1, 2, 3] 1 [{ rst := true, load := some [4, 2] }] .regReadIndex
    s.inputs = [{ rst := true, load := some [4, 2] }] ∧ programFits s.params [4, 2] = true ∧
      tokensFit s.params [4, 2] = true := by decide

theorem test_witness_BootedTraceShowsTheOccupancy :
    let s := mk [1, 2, 3] 1 [{ rst := true, load := some [4, 2] }]
    s.inputs = [{ rst := true, load := some [4, 2] }] ∧ programFits s.params [4, 2] = true ∧
      tokensFit s.params [4, 2] = true ∧ 1 ≤ 2 ∧ 2 ≤ [4, 2].length := by decide

theorem test_witness_HaltedEngineHolds :
    let s := mk [1, 2] 2 [{ rfWe := true, rfWaddr := 7, rfWdata := 3 }]
    s.edgeRefusal = none ∧ s.input.rst = false ∧ s.prog.length ≤ s.pc ∧ s.fault = .none ∧
      badRead s.input = false ∧ s.input.rfWe = true ∧ s.input.rfWaddr = (((7 : Fin 32) : Nat) : Int) := by decide

/-- A state with the invariant, in the middle of a run. -/
theorem test_inv_mid : Inv (mk [1, 2, 3, 4] 2) where
  params := by decide
  program := by decide
  tokens := by decide
  count_eq := by decide
  pc_le := by decide
  bt_false := by decide
  occupancy := by intro j; cases j <;> rfl
  regs := by unfold RegsOk; decide
  unloaded := by decide

theorem test_witness_StepKeepsTheInvariant :
    Inv (mk [1, 2, 3, 4] 2) ∧ ∃ t, step (mk [1, 2, 3, 4] 2) = .next t := ⟨test_inv_mid, _, rfl⟩

theorem test_witness_OccupiedSlotsAreMinCountFive : Inv (mk [1, 2, 3, 4] 2) := test_inv_mid

theorem test_witness_ResetEdgeTakesTheResetState :
    let s := mk [1, 2] 1 [{ rst := true, rfWe := true, rfWaddr := 32 }] .regWriteIndex
    s.edgeRefusal = none ∧ s.input.rst = true ∧ paramsOk s.params = true := by decide

/-- For RegisterReadRuns, RegisterWriteRuns, WriteThenReadReturnsTheValue and
CycleCommutesWithPortOperations. Both ends of the range, inside and outside. -/
theorem test_witness_register_operations :
    (mk [1] 0).fault = .none ∧ ((((31 : Fin 32) : Nat) : Int) = 31) ∧
      ((-1 : Int) < 0 ∨ 31 < (-1 : Int)) ∧ ((32 : Int) < 0 ∨ 31 < (32 : Int)) ∧ ((1 : Fin 32) ≠ 0) := by decide

theorem test_witness_ReadDuringWriteShowsTheOldValue :
    (let s := mk [1] 1 [{ rfRe := true, rfRaddr := 3, rfWe := true, rfWaddr := 3, rfWdata := 9 }];
      s.edgeRefusal = none ∧ s.input.rst = false ∧ s.fault = .none ∧ s.input.rfWe = true ∧
      s.input.rfWaddr = (((3 : Fin 32) : Nat) : Int) ∧ s.input.rfRe = true ∧
      s.input.rfRaddr = (((3 : Fin 32) : Nat) : Int)) ∧
    (∃ t, step (mk [1] 0) = .next t) ∧ (mk [1] 0).input.rst = false ∧ (mk [1] 0).input.rfWe = false :=
  ⟨by decide, ⟨_, rfl⟩, by decide, by decide⟩

theorem test_witness_NoStageUsesTheRegisterFile :
    ∃ s t : State, step s = .next t ∧ s.input.rst = false ∧ t.readReg 5 ≠ s.readReg 5 :=
  ⟨mk [1] 0 [{ rfWe := true, rfWaddr := 5, rfWdata := 42 }], _, rfl, by decide, by decide⟩

/-- For FaultedPortsDoNothing. -/
theorem test_witness_faulted : (mk [1, 2] 1 [] .regReadIndex).fault ≠ .none := by decide

/-- One state for each clause. -/
theorem test_witness_FaultedBlockIsFrozenUntilReset :
    (let s := mk [1, 2] 1 [{ rfWe := true, rfWaddr := 6 }] .regReadIndex;
      s.fault ≠ .none ∧ s.edgeRefusal = none ∧ s.input.rst = false) ∧
    (let s := mk [1, 2] 1 [{ rst := true }] .regReadIndex;
      s.fault ≠ .none ∧ s.edgeRefusal = none ∧ s.input.rst = true ∧
        nextIs (step s) (fun t => decide (t.fault = .none)) = true) := by decide

theorem test_witness_BadIndexSuppressesWritesNotTheCycle :
    let s := mk [1, 2] 1 [{ rfRe := true, rfRaddr := 32, rfWe := true, rfWaddr := 4, rfWdata := 8 }]
    s.edgeRefusal = none ∧ s.input.rst = false ∧ s.fault = .none ∧ badRead s.input = true ∧
      nextIs (step s) (fun t => nextIs (run 3 t) (fun _ => true) && (t.inputs.take 3).all (fun e => !e.rst)) = true := by
  decide

/-- Both causes. -/
theorem test_witness_FaultsComeFromBadIndicesOnly :
    (let s := mk [1, 2] 1 [{ rfWe := true, rfWaddr := -1 }];
      s.fault = .none ∧ nextIs (step s) (fun t => decide (t.fault = .regWriteIndex)) = true) ∧
    (let s := mk [1, 2] 1 [{ rfRe := true, rfRaddr := 32 }];
      s.fault = .none ∧ nextIs (step s) (fun t => decide (t.fault = .regReadIndex)) = true) := by decide

theorem test_witness_ProgramIsImmutable :
    (∃ t, exec .cycle (mk [1, 2] 1) = .next t) ∧ (∃ t, step (mk [1, 2] 1) = .next t) ∧
      (mk [1, 2] 1).input.rst = false := ⟨⟨_, rfl⟩, ⟨_, rfl⟩, by decide⟩

/-- A well-formed instruction of each row. -/
theorem test_witness_DecodeOfEncodeIsTheInstruction :
    wellFormed ps (.branchToken 2) = true ∧ wellFormed ps (.nonbranchToken 255) = true ∧
      wellFormed ps .reset = true ∧ wellFormed ps .cycle = true ∧ wellFormed ps (.rfRead (-1)) = true ∧
      wellFormed ps (.rfWrite 32 (-2147483648)) = true := by decide

/-- For EveryClassifiedWordHasOneRow, EngineDecodeIsTheTableDecode, SlotWordIsReadBack and PlacedWordIsRunNext. The last word of the format, and the first beyond it. -/
theorem test_witness_words : 511 < 2 ^ (8 + 1) ∧ 2 ^ (8 + 1) ≤ 512 ∧ 255 < 2 ^ ps.tokw := by decide

theorem test_witness_CycleEmitsItsReport :
    (let s := mk [1, 2] 1;
      s.edgeRefusal = none ∧ s.input.rst = false ∧ s.fault = .none ∧ s.fetch s.pc = some 2 ∧
        ¬ (badRead s.input = true ∨ badWrite s.input = true)) ∧
    (let s := mk [1, 2] 1 [{ rfRe := true, rfRaddr := 32 }];
      s.edgeRefusal = none ∧ s.input.rst = false ∧ s.fault = .none ∧ s.fetch s.pc = some 2 ∧
        badRead s.input = true) := by decide

theorem test_witness_NoCycleNoReport :
    (mk [1, 2] 1 [{ rst := true }]).input.rst = true ∧ (mk [1, 2] 2).prog.length ≤ (mk [1, 2] 2).pc ∧
      (mk [1, 2] 1 [] .regReadIndex).fault ≠ .none := by decide

theorem test_witness_StageLineShowsNameAndContent :
    (mk [1] 1).stages.get .WB = .empty ∧ (mk [1] 1).stages.get .IF = .full 1 := by decide

theorem test_witness_OutputPortsShowTheState :
    (mk [1] 1 [{ rfRaddr := 31 }]).input.rfRaddr = (((31 : Fin 32) : Nat) : Int) := by decide

end Sys2Proof.Tests
end

section
/-! PROOFS. The register `x0` (`spec/10_state.md`, R21): what the read port shows of it, and what a write to it does. -/

namespace Sys2Proof.Machine

/-- For an index in 0..31 the read port shows that register (R84). -/
@[simp] theorem State.portRead_fin (s : State) (i : Fin 32) :
    s.portRead ((i : Nat) : Int) = s.readReg i := by
  simp [State.portRead]

/-- The read port shows 0 for `x0`, whatever is stored (R21). -/
theorem State.portRead_zero (s : State) : s.portRead 0 = 0 := by
  calc s.portRead 0 = s.readReg 0 := s.portRead_fin 0
    _ = 0 := s.readReg_zero

@[simp] theorem State.writeReg_zero (s : State) (v : Value) : s.writeReg 0 v = s := rfl

/-- RF_WRITE to `x0` changes nothing: a faulted block ignores every write (R91), an unfaulted one ignores this one. -/
theorem exec_rfWrite_zero (v : Value) (s : State) : exec (.rfWrite 0 v) s = .next s := by
  by_cases h : s.fault = .none
  · simp [exec_rfWrite 0 v s h, regOfIndex_zero]
  · exact exec_rfWrite_faulted 0 v s h

/-- Settles O30: the read port and the write, each by its rule for `x0`. -/
theorem registerZeroIsHardWired : Obligations.RegisterZeroIsHardWired :=
  ⟨State.portRead_zero, fun s v => exec_rfWrite_zero v s⟩

end Sys2Proof.Machine
end

section
/-! PROOFS. The encoding (`spec/30_encoding.md`): the classified token word (R48), the slot word (R47) and the branch
classification (R49). -/

namespace Sys2Proof

/-! ### The classified token word -/

theorem Classified.ofWord_of_lt {tokw w : Nat} (h : w < 2 ^ (tokw + 1)) :
    Classified.ofWord tokw w = .ok ⟨Machine.flagOf tokw w, Machine.payloadOf tokw w⟩ := if_pos h

theorem Classified.ofWord_of_le {tokw w : Nat} (h : 2 ^ (tokw + 1) ≤ w) :
    Classified.ofWord tokw w = .error .wordTooWide := if_neg h.not_gt

/-- Two tokens of the format with the same word are one token: each is what is read from its word. -/
theorem Classified.eq_of_toWord_eq {tokw : Nat} {c d : Classified} (hc : c.p < 2 ^ tokw) (hd : d.p < 2 ^ tokw)
    (h : c.toWord tokw = d.toWord tokw) : c = d := by
  have hread : Except.ok (ε := DecodeError) c = .ok d := calc
    .ok c = Classified.ofWord tokw (c.toWord tokw) := (Classified.ofWord_toWord c hc).symm
    _ = Classified.ofWord tokw (d.toWord tokw) := by rw [h]
    _ = .ok d := Classified.ofWord_toWord d hd
  exact Except.ok.inj hread

/-- Bit `tokw` of a word of the format selects the row, the bits below it are the operand. -/
theorem decodeClassified_of_lt {tokw w : Nat} (h : w < 2 ^ (tokw + 1)) :
    decodeClassified tokw w =
      .ok (if w.testBit tokw then .branchToken (w % 2 ^ tokw) else .nonbranchToken (w % 2 ^ tokw)) :=
  congrArg (Except.map Classified.toInstr) (Classified.ofWord_of_lt h)

theorem decodeClassified_of_le {tokw w : Nat} (h : 2 ^ (tokw + 1) ≤ w) :
    decodeClassified tokw w = .error .wordTooWide :=
  congrArg (Except.map Classified.toInstr) (Classified.ofWord_of_le h)

/-- Settles O41: the token is the one read from the word, and no other token of the format has that word. -/
theorem everyClassifiedWordHasOneRow : Obligations.EveryClassifiedWordHasOneRow := by
  intro tokw w
  refine ⟨fun hw => ⟨decodeClassified_of_lt hw, ?_⟩, decodeClassified_of_le⟩
  obtain ⟨c, hread, hword, hc⟩ := Classified.toWord_ofWord hw
  exact ⟨c, hread, hword, fun d hd hdword => Classified.eq_of_toWord_eq hd hc (hdword.trans hword.symm)⟩

/-! ### The slot word -/

/-- The valid bit alone says whether the slot is full; the payload matters only where it is (R47). -/
theorem Slot.ofWord_flaggedWord {tokw p : Nat} (v : Bool) (h : p < 2 ^ tokw) :
    Slot.ofWord tokw (Machine.flaggedWord tokw v p) = if v then .full p else .empty := by
  rw [Slot.ofWord, Machine.flagOf_flaggedWord v h, Machine.payloadOf_flaggedWord v h]

/-- The word of an empty slot is read as empty, whatever its payload bits hold. -/
theorem Slot.ofWord_toWord_empty (tokw dontCare : Nat) :
    Slot.ofWord tokw (Slot.empty.toWord tokw dontCare) = .empty :=
  Slot.ofWord_flaggedWord false (Machine.payloadOf_lt tokw dontCare)

/-- Settles O43: a full and an empty word by their valid bit, and the words that the slots are written as. -/
theorem slotWordIsReadBack : Obligations.SlotWordIsReadBack := fun tokw _ h =>
  ⟨Slot.ofWord_flaggedWord true h, Slot.ofWord_flaggedWord false h, rfl, Slot.ofWord_toWord_empty tokw⟩

/-! ### The branch classification -/

theorem Machine.isBranch_iff_infix (ps : Params) (t : Tok) :
    Machine.isBranch ps t = true ↔ ps.branchMarker <:+: Machine.render ps t :=
  Machine.containsText_iff_infix (Machine.render ps t) ps.branchMarker

/-- Settles O46: an infix is a run with a text before it and a text after it. -/
theorem branchClassIsTheSubstringTest : Obligations.BranchClassIsTheSubstringTest := by
  intro ps t
  calc Machine.isBranch ps t = true
      ↔ ps.branchMarker <:+: Machine.render ps t := Machine.isBranch_iff_infix ps t
    _ ↔ ∃ before after : Text, Machine.render ps t = before ++ ps.branchMarker ++ after :=
      exists₂_congr fun _ _ => eq_comm

end Sys2Proof
end

section
/-! PROOFS. The engine cycle (`spec/40_pipeline_cycle.md`): the cycle of an enabled engine (R68, R69, R70), and the hold
of a halted one while the register-file ports go on working (R74, R91). -/

namespace Sys2Proof.Machine

open Sys2Proof.Safety

/-! ### The enabled engine -/

theorem State.cycleEnabled_of_fetch {s : State} {tok : Tok} (hf : s.fault = .none)
    (htok : s.fetch s.pc = some tok) : s.cycleEnabled = true :=
  s.cycleEnabled_iff.mpr ⟨hf, State.lt_of_fetch htok⟩

theorem exec_branchToken_of_enabled (p : Tok) {s : State} (h : s.cycleEnabled = true) :
    exec (.branchToken p) s = .next (s.engineCycle true p) := by
  rw [exec_branchToken, if_pos h]

theorem exec_nonbranchToken_of_enabled (p : Tok) {s : State} (h : s.cycleEnabled = true) :
    exec (.nonbranchToken p) s = .next (s.engineCycle false p) := by
  rw [exec_nonbranchToken, if_pos h]

/-- CYCLE of an enabled engine is the cycle with the token at `PC` and its computed class (R49, R68). -/
theorem exec_cycle_of_fetch {s : State} {tok : Tok} (hf : s.fault = .none) (htok : s.fetch s.pc = some tok) :
    exec .cycle s = .next (s.engineCycle (isBranch s.params tok) tok) := by
  rw [exec_cycle, State.cycleNext_of_enabled (State.cycleEnabled_of_fetch hf htok) htok]

/-- Settles O6: the enabled row is the cycle of class `true`, in its closed form. -/
theorem branchTokenRuns : Obligations.BranchTokenRuns := by
  intro p s hf hpc
  calc exec (.branchToken p) s
      = .next (s.engineCycle true p) := exec_branchToken_of_enabled p (s.cycleEnabled_iff.mpr ⟨hf, hpc⟩)
    _ = .next (s.setEngine (s.pc + 1) (s.count + 1) (s.stages.shift (.full p)) false) :=
      congrArg _ (s.engineCycle_eq true p)

/-- Settles O7: the enabled row is the cycle of class `false`, in its closed form, which writes `BT` back as it was. -/
theorem nonbranchTokenRuns : Obligations.NonbranchTokenRuns := by
  intro p s hf hpc
  calc exec (.nonbranchToken p) s
      = .next (s.engineCycle false p) := exec_nonbranchToken_of_enabled p (s.cycleEnabled_iff.mpr ⟨hf, hpc⟩)
    _ = .next (s.setEngine (s.pc + 1) (s.count + 1) (s.stages.shift (.full p)) s.bt) :=
      congrArg _ (s.engineCycle_eq false p)

/-- Settles O8: a token is fetched only inside the program, so the engine is enabled and runs that token's cycle. -/
theorem cycleRuns : Obligations.CycleRuns := by
  intro s tok hf htok
  calc exec .cycle s
      = .next (s.engineCycle (isBranch s.params tok) tok) := exec_cycle_of_fetch hf htok
    _ = .next (s.setEngine (s.pc + 1) (s.count + 1) (s.stages.shift (.full tok))
          (if isBranch s.params tok then false else s.bt)) :=
      congrArg _ (s.engineCycle_eq (isBranch s.params tok) tok)

/-! ### The register-file ports at an edge -/

@[simp] theorem indexInRange_fin (i : Fin 32) : indexInRange ((i : Nat) : Int) = true := by
  have := i.isLt
  simp only [indexInRange, decide_eq_true_eq]
  omega

theorem sameEngine_portsNext (e : EdgeInput) (s : State) : sameEngine s (s.portsNext e) := by
  obtain ⟨regs, fault, h⟩ := s.portsNext_eq e
  rw [h]
  exact ⟨rfl, rfl, rfl, rfl⟩

@[simp] theorem State.portsNext_prog (e : EdgeInput) (s : State) : (s.portsNext e).prog = s.prog := by
  obtain ⟨regs, fault, h⟩ := s.portsNext_eq e
  rw [h]
  rfl

/-- A write that names a register, with no bad read beside it, is all that the ports do (R86, R89). -/
theorem State.portsNext_of_write {e : EdgeInput} {i : Fin 32} (hread : badRead e = false) (hwe : e.rfWe = true)
    (haddr : e.rfWaddr = ((i : Nat) : Int)) (s : State) : s.portsNext e = s.writeReg i e.rfWdata := by
  have hwrite : badWrite e = false := by simp [badWrite, haddr]
  simp [State.portsNext, hwrite, hread, hwe, haddr]

/-! ### The halted engine -/

theorem State.cycleNext_of_halted {s : State} (h : s.prog.length ≤ s.pc) : s.cycleNext = s := by
  have hdisabled : s.cycleEnabled = false :=
    Bool.eq_false_iff.mpr fun hc => h.not_gt (s.cycleEnabled_iff.mp hc).2
  exact State.cycleNext_of_disabled hdisabled

/-- An edge of a halted, unfaulted block is what its ports do (R74, R91). -/
theorem step_of_halted {s : State} (hp : s.edgeRefusal = none) (hrst : s.input.rst = false) (hf : s.fault = .none)
    (hhalt : s.prog.length ≤ s.pc) : step s = .next (s.portsNext s.input).finishEdge := by
  rw [step_of_unfaulted hp hrst hf, State.cycleNext_of_halted hhalt]

/-- The engine of a halted state stays halted where its `PC` and the program are kept. -/
theorem State.halted_of_sameEngine {s t : State} (hhalt : s.prog.length ≤ s.pc) (he : sameEngine s t)
    (hprog : t.prog = s.prog) : t.halted = true := by
  obtain ⟨hpc, -, -, -⟩ := he
  rwa [State.halted_iff, hprog, hpc]

/-- Settles O20, by whether a fault is recorded: a faulted block does nothing at all, an unfaulted halted one does what
its ports do, which leave the engine alone. -/
theorem haltedEngineHolds : Obligations.HaltedEngineHolds := by
  intro s hp hrst hhalt
  by_cases hf : s.fault = .none
  · have hsame : sameEngine s (s.portsNext s.input).finishEdge := sameEngine_portsNext s.input s
    have hprog : (s.portsNext s.input).finishEdge.prog = s.prog := s.portsNext_prog s.input
    refine ⟨_, step_of_halted hp hrst hf hhalt, hsame, State.halted_of_sameEngine hhalt hsame hprog, ?_⟩
    intro _ hread i hi hwe haddr
    calc (s.portsNext s.input).finishEdge.readReg i
        = (s.writeReg i s.input.rfWdata).readReg i := by
          rw [State.finishEdge_readReg, State.portsNext_of_write hread hwe haddr]
      _ = s.input.rfWdata := by simp [State.readReg_writeReg, hi]
  · have hsame : sameEngine s s.finishEdge := ⟨rfl, rfl, rfl, rfl⟩
    exact ⟨_, step_of_faulted hp hrst hf, hsame, State.halted_of_sameEngine hhalt hsame rfl,
      fun hnone => absurd hnone hf⟩

end Sys2Proof.Machine
end

section
/-! PROOFS. The register file (`spec/42_register_file.md`): what a performed read and write answer (R84 to R87), which
edges change a register (R88, R90), and what an out-of-range index does to its edge and to the later ones (R89). -/

namespace Sys2Proof.Machine

open Sys2Proof.Safety

/-! ### A performed read and a performed write -/

theorem State.writeReg_of_ne_zero {i : Fin 32} (h : i ≠ 0) (s : State) (v : Value) :
    s.writeReg i v = s.setRegs (s.regs.set i v) := if_neg h

theorem State.readReg_of_ne_zero {i : Fin 32} (h : i ≠ 0) (s : State) : s.readReg i = s.regs[i] := if_neg h

theorem exec_rfRead_fin (i : Fin 32) (s : State) : exec (.rfRead ((i : Nat) : Int)) s = .next s := by
  simp [exec_rfRead]

theorem exec_rfRead_of_outOfRange {index : Int} {s : State} (hf : s.fault = .none) (h : index < 0 ∨ 31 < index) :
    exec (.rfRead index) s = .next (s.setFault .regReadIndex) := by
  have hnone : regOfIndex index = none := (regOfIndex_eq_none_iff index).mpr h
  simp [exec_rfRead, hnone, State.raise_of_unfaulted hf]

theorem exec_rfWrite_fin (i : Fin 32) (v : Value) {s : State} (hf : s.fault = .none) :
    exec (.rfWrite ((i : Nat) : Int) v) s = .next (s.writeReg i v) := by
  simp [exec_rfWrite _ v s hf]

theorem exec_rfWrite_of_outOfRange {index : Int} (v : Value) {s : State} (hf : s.fault = .none)
    (h : index < 0 ∨ 31 < index) : exec (.rfWrite index v) s = .next (s.setFault .regWriteIndex) := by
  have hnone : regOfIndex index = none := (regOfIndex_eq_none_iff index).mpr h
  simp [exec_rfWrite index v s hf, hnone]

/-- Settles O27: the read by whether its index names a register. -/
theorem registerReadRuns : Obligations.RegisterReadRuns := fun s hf =>
  ⟨fun i => ⟨exec_rfRead_fin i s, s.portRead_fin i⟩, fun _ h => exec_rfRead_of_outOfRange hf h⟩

/-- Settles O28: the write to `x0`, to another register and to none. -/
theorem registerWriteRuns : Obligations.RegisterWriteRuns := by
  intro s v hf
  refine ⟨exec_rfWrite_zero v s, fun i hi => ?_, fun index h => exec_rfWrite_of_outOfRange v hf h⟩
  calc exec (.rfWrite ((i : Nat) : Int) v) s
      = .next (s.writeReg i v) := exec_rfWrite_fin i v hf
    _ = .next (s.setRegs (s.regs.set i v)) := congrArg _ (s.writeReg_of_ne_zero hi v)

/-! ### The engine does not use the register file -/

/-- The state after the row of a token of class `br`, as `State.cycleNext` is the state after CYCLE. -/
def State.tokenNext (br : Bool) (p : Tok) (s : State) : State :=
  if s.cycleEnabled then s.engineCycle br p else s

theorem exec_branchToken_eq_tokenNext (p : Tok) (s : State) :
    exec (.branchToken p) s = .next (s.tokenNext true p) := rfl

theorem exec_nonbranchToken_eq_tokenNext (p : Tok) (s : State) :
    exec (.nonbranchToken p) s = .next (s.tokenNext false p) := rfl

theorem State.cycleNext_of_fetch {s : State} {tok : Tok} (h : s.fetch s.pc = some tok) :
    s.cycleNext = s.tokenNext (isBranch s.params tok) tok := by
  simp [State.cycleNext, State.tokenNext, h]

theorem State.cycleNext_of_fetch_none {s : State} (h : s.fetch s.pc = none) : s.cycleNext = s := by
  simp [State.cycleNext, h]

@[simp] theorem State.tokenNext_regs (br : Bool) (p : Tok) (s : State) : (s.tokenNext br p).regs = s.regs := by
  unfold State.tokenNext
  split
  · rw [s.engineCycle_eq br p, State.setEngine_regs]
  · rfl

@[simp] theorem State.cycleNext_regs (s : State) : s.cycleNext.regs = s.regs := by
  obtain ⟨pc, count, stages, bt, h⟩ := s.cycleNext_eq
  rw [h, State.setEngine_regs]

@[simp] theorem State.cycleNext_loaded (s : State) : s.cycleNext.loaded = s.loaded := by
  obtain ⟨pc, count, stages, bt, h⟩ := s.cycleNext_eq
  rw [h, State.setEngine_loaded]

@[simp] theorem State.cycleNext_readReg (s : State) (i : Fin 32) : s.cycleNext.readReg i = s.readReg i := by
  obtain ⟨pc, count, stages, bt, h⟩ := s.cycleNext_eq
  rw [h, State.setEngine_readReg]

theorem State.engineCycle_withRegs (br : Bool) (tok : Tok) (s : State) (regs : Vector Value 32) :
    (withRegs s regs).engineCycle br tok = withRegs (s.engineCycle br tok) regs := rfl

theorem State.tokenNext_withRegs (br : Bool) (p : Tok) (s : State) (regs : Vector Value 32) :
    (withRegs s regs).tokenNext br p = withRegs (s.tokenNext br p) regs := by
  have henabled : (withRegs s regs).cycleEnabled = s.cycleEnabled := rfl
  cases h : s.cycleEnabled <;> simp [State.tokenNext, henabled, h, State.engineCycle_withRegs]

theorem State.cycleNext_withRegs (s : State) (regs : Vector Value 32) :
    (withRegs s regs).cycleNext = withRegs s.cycleNext regs := by
  have hfetch : (withRegs s regs).fetch (withRegs s regs).pc = s.fetch s.pc := rfl
  cases h : s.fetch s.pc with
  | none => rw [State.cycleNext_of_fetch_none (hfetch.trans h), State.cycleNext_of_fetch_none h]
  | some tok =>
    rw [State.cycleNext_of_fetch (hfetch.trans h), State.cycleNext_of_fetch h]
    exact s.tokenNext_withRegs _ tok regs

/-! ### Which edges change a register -/

/-- The ports keep every register that no performed write names. -/
theorem State.portsNext_readReg_of_not_named {e : EdgeInput} {j : Fin 32}
    (h : ¬ (e.rfWe = true ∧ e.rfWaddr = ((j : Nat) : Int))) (s : State) :
    (s.portsNext e).readReg j = s.readReg j := by
  unfold State.portsNext
  split
  · rfl
  · split
    · rfl
    · split
      next hwe =>
        split
        next i hi =>
          have hji : j ≠ i := fun hj => h ⟨hwe, hj ▸ eq_of_regOfIndex hi⟩
          simp [State.readReg_writeReg, hji]
        next => rfl
      next => rfl

/-- A register that an edge without reset changes is the one that a performed write of an unfaulted block names. -/
theorem step_write_of_readReg_ne {s t : State} {j : Fin 32} (h : step s = .next t) (hrst : s.input.rst = false)
    (hne : t.readReg j ≠ s.readReg j) :
    s.fault = .none ∧ s.input.rfWe = true ∧ s.input.rfWaddr = ((j : Nat) : Int) := by
  obtain ⟨-, ⟨hreset, -⟩ | ⟨-, -, rfl⟩ | ⟨-, hf, rfl⟩⟩ := step_cases h
  · exact absurd hreset (by simp [hrst])
  · exact absurd (s.finishEdge_readReg j) hne
  · refine ⟨hf, by_contra fun hnamed => hne ?_⟩
    rw [State.finishEdge_readReg, State.portsNext_readReg_of_not_named hnamed, State.cycleNext_readReg]

/-- Settles O32: the three rows of the engine by their next states, the edge by its inversion. -/
theorem noStageUsesTheRegisterFile : Obligations.NoStageUsesTheRegisterFile := by
  refine ⟨?_, fun s t j h hrst hne => step_write_of_readReg_ne h hrst hne⟩
  rintro i s regs (rfl | ⟨p, rfl | rfl⟩)
  · exact ⟨_, exec_cycle s, s.cycleNext_regs,
      (exec_cycle _).trans (congrArg _ (s.cycleNext_withRegs regs))⟩
  · exact ⟨_, exec_branchToken_eq_tokenNext p s, s.tokenNext_regs true p,
      (exec_branchToken_eq_tokenNext p _).trans (congrArg _ (s.tokenNext_withRegs true p regs))⟩
  · exact ⟨_, exec_nonbranchToken_eq_tokenNext p s, s.tokenNext_regs false p,
      (exec_nonbranchToken_eq_tokenNext p _).trans (congrArg _ (s.tokenNext_withRegs false p regs))⟩

/-- After an edge with a performed write of `x1`..`x31` and no bad read, the register holds the value written. -/
theorem step_readReg_of_write {s : State} {i : Fin 32} (hi : i ≠ 0) (hp : s.edgeRefusal = none)
    (hrst : s.input.rst = false) (hf : s.fault = .none) (hread : badRead s.input = false)
    (hwe : s.input.rfWe = true) (haddr : s.input.rfWaddr = ((i : Nat) : Int)) :
    ∃ t, step s = .next t ∧ t.readReg i = s.input.rfWdata := by
  refine ⟨_, step_of_unfaulted hp hrst hf, ?_⟩
  rw [State.finishEdge_readReg, State.portsNext_of_write hread hwe haddr]
  simp [State.readReg_writeReg, hi]

/-- Settles O31: the read port shows the state before the edge, the write acts on the state after it, and an edge that
changes the register is one that names it. -/
theorem readDuringWriteShowsTheOldValue : Obligations.ReadDuringWriteShowsTheOldValue := by
  refine fun i hi => ⟨fun s hp hrst hf hwe hwaddr _ hraddr => ⟨?_, ?_⟩, fun s t h hrst hnot => ?_⟩
  · calc s.outputs.rfRdata
        = s.portRead ((i : Nat) : Int) := congrArg s.portRead hraddr
      _ = s.readReg i := s.portRead_fin i
      _ = s.regs[i] := s.readReg_of_ne_zero hi
  · have hread : badRead s.input = false := by simp [badRead, hraddr]
    exact step_readReg_of_write hi hp hrst hf hread hwe hwaddr
  · by_contra hne
    obtain ⟨-, hwrite⟩ := step_write_of_readReg_ne h hrst hne
    exact hnot hwrite

/-! ### An out-of-range index -/

/-- An out-of-range operation leaves the ports nothing to do but record the cause, a write's before a read's (R89). -/
theorem State.portsNext_of_badIndex {e : EdgeInput} (h : badRead e = true ∨ badWrite e = true) (s : State) :
    s.portsNext e = s.setFault (if badWrite e then .regWriteIndex else .regReadIndex) := by
  cases hw : badWrite e with
  | true => simp [State.portsNext, hw]
  | false =>
    have hr : badRead e = true := h.resolve_right (by simp [hw])
    simp [State.portsNext, hw, hr]

/-- A host that may release reset has loaded a program (R102). -/
theorem State.loaded_of_no_reset {s : State} (hp : s.edgeRefusal = none) (hrst : s.input.rst = false) :
    s.loaded = true := by
  obtain ⟨-, hrelease, -⟩ := s.edgeRefusal_eq_none_iff.mp hp
  simpa [releaseAllowed, hrst] using hrelease

/-- Where a program is loaded the host resets by an input it lists only: after the list's end it is idle. -/
theorem State.input_rst_eq_false {s : State} {k : Nat} (hl : s.loaded = true)
    (h : ∀ e ∈ s.inputs.take (k + 1), e.rst = false) : s.input.rst = false := by
  cases hi : s.inputs with
  | nil => simp [State.input, hi, hl, EdgeInput.idle]
  | cons e l => simpa [State.input, hi] using h e (by simp [hi])

theorem sameBlock_refl (s : State) : sameBlock s s :=
  ⟨⟨rfl, rfl, rfl, rfl⟩, rfl, rfl, rfl, rfl, rfl⟩

/-- The end of an edge is nothing of the block. -/
theorem sameBlock_of_finishEdge {s t : State} (h : sameBlock s.finishEdge t) : sameBlock s t := h

/-- A faulted block is frozen over any number of edges without reset (R89, R107). -/
theorem sameBlock_of_run_faulted {k : Nat} {s t : State} (hf : s.fault ≠ .none) (hl : s.loaded = true)
    (hrst : ∀ e ∈ s.inputs.take k, e.rst = false) (h : run k s = .next t) : sameBlock s t := by
  induction k generalizing s with
  | zero =>
    obtain rfl : s = t := Host.Outcome.next.inj h
    exact sameBlock_refl s
  | succ k ih =>
    have hnow : s.input.rst = false := State.input_rst_eq_false hl hrst
    have hlater : ∀ e ∈ s.finishEdge.inputs.take k, e.rst = false := fun e he => hrst e <| by
      have htail : (s.inputs.take (k + 1)).tail = s.inputs.tail.take k :=
        List.tail_take_eq_take_tail _ _
      exact List.mem_of_mem_tail (htail ▸ he)
    have hstep : step s = .next s.finishEdge := by
      cases hp : s.edgeRefusal with
      | none => exact step_of_faulted hp hnow hf
      | some r => exact absurd h (run_of_stop k (by simp [step_of_refusal hp]))
    rw [run_succ_of_step hstep] at h
    exact sameBlock_of_finishEdge (ih hf hl hlater h)

/-- Settles O37: the edge is the cycle with the cause recorded on it, and the faulted block it leaves is frozen. -/
theorem badIndexSuppressesWritesNotTheCycle : Obligations.BadIndexSuppressesWritesNotTheCycle := by
  intro s hp hrst hf hbad
  have hcause : (if badWrite s.input then FaultCause.regWriteIndex else .regReadIndex) ≠ .none := by
    split <;> simp
  have hloaded : s.cycleNext.loaded = true := s.cycleNext_loaded.trans (State.loaded_of_no_reset hp hrst)
  have hstep := step_of_unfaulted hp hrst hf
  rw [State.portsNext_of_badIndex hbad] at hstep
  exact ⟨_, _, hstep, exec_cycle s, ⟨rfl, rfl, rfl, rfl⟩, s.cycleNext_regs, rfl,
    fun k v hlater hrun => sameBlock_of_run_faulted hcause hloaded hlater hrun⟩

end Sys2Proof.Machine
end

section
/-! PROOFS. The report of a stage slot (`spec/43_stage_report.md`): the line of a slot as its stage's name and its
content's text (R93), and the names in the report's order (R18, R95). -/

namespace Sys2Proof.Machine

@[simp] theorem slotText_empty (ps : Params) : slotText ps .empty = ps.emptyMark := rfl

@[simp] theorem slotText_full (ps : Params) (t : Tok) : slotText ps (.full t) = render ps t := rfl

/-- A stage's line is its name, a colon with a space, and the text of what the slot holds (R93). -/
theorem State.stageLine_of_get {s : State} {j : StageName} {c : Slot} (h : s.stages.get j = c) :
    s.stageLine j = j.text ++ [':', ' '] ++ slotText s.params c := by
  subst h
  rfl

/-- The five stage names in the report's order (R18, R95). -/
theorem StageName.all_map_text : StageName.all.map StageName.text =
    [['I', 'F'], ['I', 'D'], ['E', 'X'], ['M', 'E', 'M'], ['W', 'B']] := rfl

/-- Settles O49: the line by what the slot holds, and the names as they stand in the report. -/
theorem stageLineShowsNameAndContent : Obligations.StageLineShowsNameAndContent := by
  intro s j
  refine ⟨fun hempty => ?_, fun t hfull => ?_, StageName.all_map_text⟩
  · rw [State.stageLine_of_get hempty, slotText_empty]
  · rw [State.stageLine_of_get hfull, slotText_full]

end Sys2Proof.Machine
end

section
/-! PROOFS. Exceptions (`spec/60_exceptions.md`): the faulted block is quiescent, is no end of a run, and is left by
reset alone (R98, R107, R121). -/

namespace Sys2Proof.Machine

open Sys2Proof.Safety

/-! ### What a faulted block shows -/

theorem State.cycleEnabled_of_faulted {s : State} (hf : s.fault ≠ .none) : s.cycleEnabled = false :=
  Bool.eq_false_iff.mpr fun hc => hf (s.cycleEnabled_iff.mp hc).1

/-- A faulted block is no end of a run, wherever its `PC` stands (R98). -/
theorem State.ended_of_faulted {s : State} (hf : s.fault ≠ .none) : s.ended = false := by
  simp [State.ended, s.faulted_iff.mpr hf]

/-- A final count is emitted only at the end of a run (R97). -/
theorem State.finalCount_of_not_ended {s : State} (h : s.ended = false) : s.finalCount = none := by
  simp [State.finalCount, h]

/-- An edge reports only a cycle, and a faulted block has none (R96, R107). -/
theorem reportOf_of_faulted {s : State} (hf : s.fault ≠ .none) (t : State) : reportOf s t = none := by
  simp [reportOf, State.cycles, State.cycleEnabled_of_faulted hf]

/-! ### What an edge of a faulted block does -/

/-- An edge without reset takes nothing but its inputs from a faulted block (R107). -/
theorem step_sameBlock_of_faulted {s : State} (hp : s.edgeRefusal = none) (hrst : s.input.rst = false)
    (hf : s.fault ≠ .none) : ∃ t, step s = .next t ∧ sameBlock s t :=
  ⟨_, step_of_faulted hp hrst hf, sameBlock_of_finishEdge (sameBlock_refl s.finishEdge)⟩

/-- A reset edge leaves no fault behind (R121). -/
theorem step_unfaulted_of_reset {s : State} (hp : s.edgeRefusal = none) (hrst : s.input.rst = true) :
    ∃ t, step s = .next t ∧ t.fault = .none :=
  ⟨_, step_of_reset hp hrst, s.presented.applyReset_fault⟩

/-- Of the edges a faulted block can take, the one without reset keeps the fault (R107). -/
theorem reset_of_step_unfaulted {s t : State} (hf : s.fault ≠ .none) (h : step s = .next t) (ht : t.fault = .none) :
    s.input.rst = true := by
  obtain ⟨-, ⟨hreset, -⟩ | ⟨-, -, rfl⟩ | ⟨-, hnone, -⟩⟩ := step_cases h
  · exact hreset
  · exact absurd ht hf
  · exact absurd hnone hf

/-- Settles O36: what the faulted block shows, and its edge with and without reset. -/
theorem faultedBlockIsFrozenUntilReset : Obligations.FaultedBlockIsFrozenUntilReset := by
  intro s hf
  have hended : s.ended = false := State.ended_of_faulted hf
  refine ⟨State.finalCount_of_not_ended hended, hended, fun hp hrst => ?_,
    fun hp hrst => step_unfaulted_of_reset hp hrst, fun t h ht => reset_of_step_unfaulted hf h ht⟩
  obtain ⟨t, hstep, hsame⟩ := step_sameBlock_of_faulted hp hrst hf
  exact ⟨t, hstep, hsame, reportOf_of_faulted hf t⟩

end Sys2Proof.Machine
end

section
/-! PROOFS. The facts of one edge that the later proofs cite: what a presented program, a cycle, the ports and a reset
leave of each field, and which register and which cause the ports write. -/

namespace Sys2Proof.Machine

open Sys2Proof.Safety

/-! ### A presented program -/

theorem State.presented_of_load {s : State} {prog : List Tok} (h : s.input.load = some prog) :
    s.presented = s.loadProgram prog := by
  simp [State.presented, h]

theorem State.presented_of_no_load {s : State} (h : s.input.load = none) : s.presented = s := by
  simp [State.presented, h]

/-- Presenting a program either loads it or leaves the state alone. -/
theorem State.presented_cases (s : State) : (∃ prog, s.presented = s.loadProgram prog) ∨ s.presented = s := by
  cases h : s.input.load with
  | some prog => exact .inl ⟨prog, State.presented_of_load h⟩
  | none => exact .inr (State.presented_of_no_load h)

/-! ### The cycle -/

@[simp] theorem State.cycleNext_params (s : State) : s.cycleNext.params = s.params := by
  obtain ⟨pc, count, stages, bt, h⟩ := s.cycleNext_eq
  rw [h, State.setEngine_params]

@[simp] theorem State.cycleNext_prog (s : State) : s.cycleNext.prog = s.prog := by
  obtain ⟨pc, count, stages, bt, h⟩ := s.cycleNext_eq
  rw [h, State.setEngine_prog]

@[simp] theorem State.cycleNext_inputs (s : State) : s.cycleNext.inputs = s.inputs := by
  obtain ⟨pc, count, stages, bt, h⟩ := s.cycleNext_eq
  rw [h, State.setEngine_inputs]

/-- The cycle of an unfaulted block at a fetched token, in closed form (R68). -/
theorem State.cycleNext_eq_setEngine {s : State} {tok : Tok} (hf : s.fault = .none)
    (htok : s.fetch s.pc = some tok) :
    s.cycleNext = s.setEngine (s.pc + 1) (s.count + 1) (s.stages.shift (.full tok))
      (if isBranch s.params tok then false else s.bt) := by
  rw [State.cycleNext_of_enabled (State.cycleEnabled_of_fetch hf htok) htok, State.engineCycle_eq]

/-- R58's two conditions, negated. -/
theorem State.cycleEnabled_eq_false_iff (s : State) :
    s.cycleEnabled = false ↔ ¬ (s.fault = .none ∧ s.pc < s.prog.length) := by
  rw [← s.cycleEnabled_iff, Bool.not_eq_true]

/-! ### The ports -/

@[simp] theorem State.portsNext_pc (e : EdgeInput) (s : State) : (s.portsNext e).pc = s.pc := by
  obtain ⟨regs, fault, h⟩ := s.portsNext_eq e
  rw [h, State.setFault_pc, State.setRegs_pc]

@[simp] theorem State.portsNext_count (e : EdgeInput) (s : State) : (s.portsNext e).count = s.count := by
  obtain ⟨regs, fault, h⟩ := s.portsNext_eq e
  rw [h, State.setFault_count, State.setRegs_count]

@[simp] theorem State.portsNext_stages (e : EdgeInput) (s : State) : (s.portsNext e).stages = s.stages := by
  obtain ⟨regs, fault, h⟩ := s.portsNext_eq e
  rw [h, State.setFault_stages, State.setRegs_stages]

@[simp] theorem State.portsNext_bt (e : EdgeInput) (s : State) : (s.portsNext e).bt = s.bt := by
  obtain ⟨regs, fault, h⟩ := s.portsNext_eq e
  rw [h, State.setFault_bt, State.setRegs_bt]

@[simp] theorem State.portsNext_params (e : EdgeInput) (s : State) : (s.portsNext e).params = s.params := by
  obtain ⟨regs, fault, h⟩ := s.portsNext_eq e
  rw [h, State.setFault_params, State.setRegs_params]

@[simp] theorem State.portsNext_loaded (e : EdgeInput) (s : State) : (s.portsNext e).loaded = s.loaded := by
  obtain ⟨regs, fault, h⟩ := s.portsNext_eq e
  rw [h, State.setFault_loaded, State.setRegs_loaded]

@[simp] theorem State.portsNext_inputs (e : EdgeInput) (s : State) : (s.portsNext e).inputs = s.inputs := by
  obtain ⟨regs, fault, h⟩ := s.portsNext_eq e
  rw [h, State.setFault_inputs, State.setRegs_inputs]

/-- With no index out of range the ports write at most the one register that a write names. -/
theorem State.portsNext_of_inRange {e : EdgeInput} (hw : badWrite e = false) (hr : badRead e = false) (s : State) :
    (e.rfWe = false ∧ s.portsNext e = s) ∨
      ∃ i : Fin 32, e.rfWe = true ∧ e.rfWaddr = ((i : Nat) : Int) ∧ s.portsNext e = s.writeReg i e.rfWdata := by
  cases hwe : e.rfWe with
  | false => exact .inl ⟨rfl, by simp [State.portsNext, hw, hr, hwe]⟩
  | true =>
    have hin : indexInRange e.rfWaddr = true := by simpa [badWrite, hwe] using hw
    obtain ⟨i, hi⟩ := regOfIndex_of_inRange hin
    have haddr : e.rfWaddr = ((i : Nat) : Int) := eq_of_regOfIndex hi
    exact .inr ⟨i, rfl, haddr, State.portsNext_of_write hr hwe haddr s⟩

theorem State.writeReg_fault (s : State) (i : Fin 32) (v : Value) : (s.writeReg i v).fault = s.fault := by
  obtain ⟨regs, h⟩ := s.writeReg_eq i v
  rw [h, State.setRegs_fault]

/-- The cause that the ports record, a write's before a read's (R89). -/
theorem State.portsNext_fault (e : EdgeInput) (s : State) :
    (s.portsNext e).fault =
      if badWrite e then .regWriteIndex else if badRead e then .regReadIndex else s.fault := by
  cases hw : badWrite e with
  | true => simp [State.portsNext, hw]
  | false =>
    cases hr : badRead e with
    | true => simp [State.portsNext, hw, hr]
    | false =>
      obtain ⟨-, h⟩ | ⟨i, -, -, h⟩ := State.portsNext_of_inRange hw hr s
      · simp [h]
      · simp [h, State.writeReg_fault]

/-- Every register after the ports: the one that a performed write names, unless an index of the edge is out of range,
holds the value written (R86, R89). -/
theorem State.portsNext_readReg (e : EdgeInput) (s : State) (i : Fin 32) :
    (s.portsNext e).readReg i =
      if badWrite e = false ∧ badRead e = false ∧ e.rfWe = true ∧ e.rfWaddr = ((i : Nat) : Int) ∧ i ≠ 0
      then e.rfWdata else s.readReg i := by
  by_cases hbad : badRead e = true ∨ badWrite e = true
  · have hnot : ¬ (badWrite e = false ∧ badRead e = false ∧ e.rfWe = true ∧
        e.rfWaddr = ((i : Nat) : Int) ∧ i ≠ 0) := by
      rintro ⟨hw, hr, -⟩
      simp [hw, hr] at hbad
    rw [if_neg hnot, State.portsNext_of_badIndex hbad, State.setFault_readReg]
  · obtain ⟨hr, hw⟩ : badRead e = false ∧ badWrite e = false := by simpa using hbad
    obtain ⟨hwe, h⟩ | ⟨j, hwe, haddr, h⟩ := State.portsNext_of_inRange hw hr s
    · simp [h, hwe]
    · have hname : ((j : Nat) : Int) = ((i : Nat) : Int) ↔ i = j := by
        rw [Int.natCast_inj, ← Fin.ext_iff, eq_comm]
      rw [h, State.readReg_writeReg, haddr]
      by_cases hij : i = j
      · subst hij
        simp [hw, hr, hwe]
      · simp [hname, hij]

/-- Ports that perform neither a read nor a write leave the state alone. -/
theorem State.portsNext_of_no_strobe {e : EdgeInput} (hre : e.rfRe = false) (hwe : e.rfWe = false) (s : State) :
    s.portsNext e = s := by
  simp [State.portsNext, badRead, badWrite, hre, hwe]

/-! ### Reset -/

@[simp] theorem Stages.get_empty (j : StageName) : Stages.empty.get j = .empty := by
  cases j <;> rfl

theorem State.applyReset_readReg (s : State) (i : Fin 32) :
    s.applyReset.readReg i = if i = 0 then 0 else (resetRegs s.params s.edges)[i] := rfl

/-- After the reset event every register holds a signed `XLEN`-bit value (R121). -/
theorem regsOk_applyReset {s : State} (h : paramsOk s.params = true) : RegsOk s.applyReset := by
  have hx : 1 ≤ s.params.xlen := by
    simp only [paramsOk, Bool.and_eq_true, decide_eq_true_eq] at h
    exact h.2
  intro i
  rw [State.applyReset_params, State.applyReset_readReg]
  split
  · exact fitsSigned_zero _
  · exact resetRegs_fits hx s.edges i

end Sys2Proof.Machine
end

section
/-! PROOFS. Encoding and decoding (`spec/30_encoding.md`): the format of each row (R48, R56, R57), and what decoding an
encoded instruction and a fetched token gives. -/

namespace Sys2Proof

/-! ### Port values -/

theorem decodePorts_of_reset {e : EdgeInput} (h : e.rst = true) (faulted running : Bool) :
    decodePorts faulted running e = [.reset] := by
  simp [decodePorts, h]

/-- An edge without reset of an unfaulted block that performs no write: the cycle, then the read if there is one. -/
theorem decodePorts_of_no_write {e : EdgeInput} (hrst : e.rst = false) (hwe : e.rfWe = false) (running : Bool) :
    decodePorts false running e =
      (if running then [Instr.cycle] else []) ++ (if e.rfRe then [Instr.rfRead e.rfRaddr] else []) := by
  simp [decodePorts, hrst, hwe]

/-- An edge without reset of an unfaulted block that performs no read: the cycle, then the write if there is one. -/
theorem decodePorts_of_no_read {e : EdgeInput} (hrst : e.rst = false) (hre : e.rfRe = false) (running : Bool) :
    decodePorts false running e =
      (if running then [Instr.cycle] else []) ++
        (if e.rfWe then [Instr.rfWrite e.rfWaddr e.rfWdata] else []) := by
  simp [decodePorts, hrst, hre]

/-- Settles O44: the written-out words, each by evaluating its decoder. -/
theorem writtenOutWordsDecode : Obligations.WrittenOutWordsDecode :=
  ⟨rfl, rfl, rfl, rfl, rfl, rfl⟩

/-! ### Decoding what was encoded -/

/-- A well-formed token row's payload fits the format (R46). -/
theorem payload_lt_of_wellFormed_branchToken {ps : Params} {p : Tok} (h : wellFormed ps (.branchToken p) = true) :
    p < 2 ^ ps.tokw := by
  simp only [wellFormed, Bool.and_eq_true, decide_eq_true_eq] at h
  exact h.1

theorem payload_lt_of_wellFormed_nonbranchToken {ps : Params} {p : Tok}
    (h : wellFormed ps (.nonbranchToken p) = true) : p < 2 ^ ps.tokw := by
  simp only [wellFormed, Bool.and_eq_true, decide_eq_true_eq] at h
  exact h.1

/-- A classified word decodes to its row alone, whether the engine runs or not. -/
theorem decode_classified {tokw : Nat} (c : Classified) (h : c.p < 2 ^ tokw) (running : Bool) :
    decode tokw running (.classified (c.toWord tokw)) = .ok [c.toInstr] := by
  rw [decode, decodeClassified_toWord c h]
  rfl

/-- Settles O40, one row at a time: a token row by its classified word, a PORT row by what its port values select. -/
theorem decodeOfEncodeIsTheInstruction : Obligations.DecodeOfEncodeIsTheInstruction := by
  intro ps i hwf running
  cases i with
  | branchToken p => exact decode_classified ⟨true, p⟩ (payload_lt_of_wellFormed_branchToken hwf) running
  | nonbranchToken p => exact decode_classified ⟨false, p⟩ (payload_lt_of_wellFormed_nonbranchToken hwf) running
  | reset => exact congrArg Except.ok (decodePorts_of_reset rfl false running)
  | cycle =>
    refine congrArg Except.ok ((decodePorts_of_no_write rfl rfl running).trans ?_)
    cases running <;> rfl
  | rfRead index =>
    refine congrArg Except.ok ((decodePorts_of_no_write rfl rfl running).trans ?_)
    cases running <;> rfl
  | rfWrite index v =>
    refine congrArg Except.ok ((decodePorts_of_no_read rfl rfl running).trans ?_)
    cases running <;> rfl

/-- Settles O42: the token's own classified word is read back as the row the engine decodes. -/
theorem engineDecodeIsTheTableDecode : Obligations.EngineDecodeIsTheTableDecode :=
  fun ps t ht => decodeClassified_toWord (classify ps t) ht

/-- Settles O51: each row by the statement of its format. -/
theorem eachRowHasItsFormat : Obligations.EachRowHasItsFormat
  | .branchToken p => Laws.TableFormat.branchToken p
  | .nonbranchToken p => Laws.TableFormat.nonbranchToken p
  | .reset => Laws.TableFormat.reset
  | .cycle => Laws.TableFormat.cycle
  | .rfRead index => Laws.TableFormat.rfRead index
  | .rfWrite index value => Laws.TableFormat.rfWrite index value

end Sys2Proof
end

section
/-! PROOFS. What one step runs (`spec/40_pipeline_cycle.md` section 2, `spec/60_exceptions.md` section 3): the fetched
instruction, the selected operations, and the priority of one edge (R112). -/

namespace Sys2Proof.Machine

open Sys2Proof.Safety

/-! ### Every instruction and every presentable edge answers a next state -/

theorem State.raise_prog (s : State) (c : FaultCause) : (s.raise c).prog = s.prog := by
  unfold State.raise
  split
  · rfl
  · exact s.setFault_prog c

theorem State.writeReg_prog (s : State) (i : Fin 32) (v : Value) : (s.writeReg i v).prog = s.prog := by
  obtain ⟨regs, h⟩ := s.writeReg_eq i v
  rw [h, State.setRegs_prog]

theorem State.tokenNext_prog (br : Bool) (p : Tok) (s : State) : (s.tokenNext br p).prog = s.prog := by
  unfold State.tokenNext
  split
  · rw [s.engineCycle_eq br p, State.setEngine_prog]
  · rfl

/-- Every instruction answers a next state, with the program as it was (R43, R104). -/
theorem exec_next_prog (i : Instr) (s : State) : ∃ t, exec i s = .next t ∧ t.prog = s.prog := by
  cases i with
  | branchToken p => exact ⟨_, exec_branchToken_eq_tokenNext p s, s.tokenNext_prog true p⟩
  | nonbranchToken p => exact ⟨_, exec_nonbranchToken_eq_tokenNext p s, s.tokenNext_prog false p⟩
  | reset => exact ⟨_, exec_reset s, s.applyReset_prog⟩
  | cycle => exact ⟨_, exec_cycle s, s.cycleNext_prog⟩
  | rfRead index =>
    refine ⟨_, exec_rfRead index s, ?_⟩
    split
    · rfl
    · exact s.raise_prog _
  | rfWrite index v =>
    by_cases hf : s.fault = .none
    · refine ⟨_, exec_rfWrite index v s hf, ?_⟩
      cases regOfIndex index with
      | some i => exact s.writeReg_prog i v
      | none => exact s.setFault_prog _
    · exact ⟨s, exec_rfWrite_faulted index v s hf, rfl⟩

theorem exists_step_of_presentable {s : State} (hp : s.edgeRefusal = none) : ∃ t, step s = .next t := by
  cases hrst : s.input.rst with
  | true => exact ⟨_, step_of_reset hp hrst⟩
  | false =>
    by_cases hf : s.fault = .none
    · exact ⟨_, step_of_unfaulted hp hrst hf⟩
    · exact ⟨_, step_of_faulted hp hrst hf⟩

/-- Settles O4: an instruction by its row, an edge by R112's three cases. -/
theorem nothingEndsTheMachine : Obligations.NothingEndsTheMachine := by
  refine ⟨fun i s => ?_, fun s hp => exists_step_of_presentable hp⟩
  obtain ⟨t, h, -⟩ := exec_next_prog i s
  exact ⟨t, h⟩

/-- Settles O2: the step of a presentable edge; presenting a program changes neither its inputs nor its fault. -/
theorem stepRunsTheSelectedOperations : Obligations.StepRunsTheSelectedOperations := by
  intro s hp
  have hselected : s.presented.selected = decodePorts s.faulted s.presented.running s.input := by
    rw [State.selected, s.presented_faulted, s.presented_input]
  rw [step, edge, hp, ← hselected]

/-! ### Refused edges -/

theorem edgeRefusal_of_programTooLong {s : State} (hload : loadAllowed s.input = true)
    (hrelease : releaseAllowed s.loaded s.input = true) (hlong : 2 ^ s.params.pcw - 1 < s.presented.prog.length) :
    s.edgeRefusal = some .programTooLong := by
  have hfits : programFits s.params s.presented.prog = false := decide_eq_false hlong.not_ge
  simp [State.edgeRefusal, hload, hrelease, hfits]

theorem edgeRefusal_of_programChanged {s : State} (hrst : s.input.rst = false) (hload : s.input.load ≠ none) :
    s.edgeRefusal = some .programChangedInRun := by
  have hnot : loadAllowed s.input = false := by
    simpa [loadAllowed, hrst] using Option.isSome_iff_ne_none.mpr hload
  simp [State.edgeRefusal, hnot]

theorem edgeRefusal_of_released_unloaded {s : State} (hl : s.loaded = false) (hrst : s.input.rst = false)
    (hload : s.input.load = none) : s.edgeRefusal = some .resetReleasedUnloaded := by
  have hallowed : loadAllowed s.input = true := by simp [loadAllowed, hload]
  have hnot : releaseAllowed s.loaded s.input = false := by simp [releaseAllowed, hl, hrst]
  simp [State.edgeRefusal, hallowed, hnot]

/-- Settles O5: each broken duty is the refusal of the edge, and a refused edge is a refused step. -/
theorem unpresentableProgramsAreRefused : Obligations.UnpresentableProgramsAreRefused := fun _ =>
  ⟨fun hload hrelease hlong => step_of_refusal (edgeRefusal_of_programTooLong hload hrelease hlong),
    fun hrst hload => step_of_refusal (edgeRefusal_of_programChanged hrst hload),
    fun hl hrst hload => step_of_refusal (edgeRefusal_of_released_unloaded hl hrst hload)⟩

/-! ### The engine cycle and the token rows -/

theorem decodeToken_of_branch {ps : Params} {t : Tok} (h : isBranch ps t = true) :
    decodeToken ps t = .branchToken t := by
  simp [decodeToken, classify, h]

theorem decodeToken_of_nonbranch {ps : Params} {t : Tok} (h : isBranch ps t = false) :
    decodeToken ps t = .nonbranchToken t := by
  simp [decodeToken, classify, h]

/-- The row decoded from a token runs the cycle of the token's class. -/
theorem exec_decodeToken (s : State) (tok : Tok) :
    exec (decodeToken s.params tok) s = .next (s.tokenNext (isBranch s.params tok) tok) := by
  cases hb : isBranch s.params tok with
  | true => rw [decodeToken_of_branch hb, exec_branchToken_eq_tokenNext]
  | false => rw [decodeToken_of_nonbranch hb, exec_nonbranchToken_eq_tokenNext]

/-- CYCLE at a fetched token is the row of that token, enabled or not. -/
theorem exec_cycle_eq_decodeToken {s : State} {tok : Tok} (htok : s.fetch s.pc = some tok) :
    exec .cycle s = exec (decodeToken s.params tok) s := by
  rw [exec_cycle, State.cycleNext_of_fetch htok, exec_decodeToken]

/-- Settles O9: the row decoded from the fetched token runs the same cycle. -/
theorem cycleRunsTheClassOfItsToken : Obligations.CycleRunsTheClassOfItsToken :=
  fun _ _ _ htok => exec_cycle_eq_decodeToken htok

theorem State.tokenNext_of_disabled {s : State} (h : s.cycleEnabled = false) (br : Bool) (p : Tok) :
    s.tokenNext br p = s := by
  simp [State.tokenNext, h]

theorem State.cycleEnabled_of_halted {s : State} (h : s.prog.length ≤ s.pc) : s.cycleEnabled = false :=
  s.cycleEnabled_eq_false_iff.mpr fun ⟨_, hpc⟩ => h.not_gt hpc

/-- Settles O10: a faulted or a halted block enables no cycle, and none of the three rows moves without one. -/
theorem disabledCycleHolds : Obligations.DisabledCycleHolds := by
  intro p s h
  have hoff : s.cycleEnabled = false := h.elim State.cycleEnabled_of_faulted State.cycleEnabled_of_halted
  refine ⟨?_, ?_, ?_⟩
  · rw [exec_cycle, State.cycleNext_of_disabled hoff]
  · rw [exec_branchToken_eq_tokenNext, State.tokenNext_of_disabled hoff]
  · rw [exec_nonbranchToken_eq_tokenNext, State.tokenNext_of_disabled hoff]

/-- Settles O12: both loops, copy by copy on the five slots. -/
theorem descendingCopyIsTheShift : Obligations.DescendingCopyIsTheShift :=
  fun _ _ => ⟨rfl, rfl⟩

/-- Settles O13: the functions are constant, so each value is read off its definition. -/
theorem controlUnitNeverTakes : Obligations.ControlUnitNeverTakes :=
  ⟨rfl, fun _ => rfl, fun _ => rfl⟩

/-- Settles O14: the closed forms of the two classes' cycles differ in their last argument. -/
theorem tokenClassChangesOnlyBt : Obligations.TokenClassChangesOnlyBt :=
  fun p s hf hpc => ⟨_, nonbranchTokenRuns p s hf hpc, branchTokenRuns p s hf hpc⟩

/-! ### The fetched instruction -/

/-- Every token of a program of `TOKW`-bit words is one (R46). -/
theorem lt_of_fetch_of_tokensFit {s : State} {i : Nat} {tok : Tok} (h : tokensFit s.params s.prog = true)
    (htok : s.fetch i = some tok) : tok < 2 ^ s.params.tokw := by
  have hall : ∀ t ∈ s.prog, t < 2 ^ s.params.tokw := by simpa [tokensFit] using h
  exact hall tok (List.mem_of_getElem? htok)

/-- The instruction that the engine decodes from a token that fits is well formed: its row is the one of its class. -/
theorem wellFormed_decodeToken {ps : Params} {tok : Tok} (h : tok < 2 ^ ps.tokw) :
    wellFormed ps (decodeToken ps tok) = true := by
  cases hb : isBranch ps tok with
  | true => simp [decodeToken_of_branch hb, wellFormed, h, hb]
  | false => simp [decodeToken_of_nonbranch hb, wellFormed, h, hb]

/-- Settles O1: with no port used the edge is the cycle alone, which is the row of the fetched token. -/
theorem stepRunsTheFetchedInstruction : Obligations.StepRunsTheFetchedInstruction := by
  intro s tok hp hrst hre hwe hf htok
  obtain ⟨-, -, -, htokens, -⟩ := s.edgeRefusal_eq_none_iff.mp hp
  rw [State.presented_of_no_reset hp hrst] at htokens
  refine ⟨wellFormed_decodeToken (lt_of_fetch_of_tokensFit htokens htok), ?_⟩
  rw [step_of_unfaulted hp hrst hf, State.portsNext_of_no_strobe hre hwe, ← exec_cycle_eq_decodeToken htok,
    exec_cycle]
  rfl

/-! ### The placed word (the model's harness, log entry 11) -/

section Placed

variable (s : State) (tokw w : Nat)

/-- The placed program's length is `PC + 1`, which the placed `PCW` can count. -/
theorem withFetchWord_programFits :
    programFits (s.withFetchWord (tokw + 1) w).params (s.withFetchWord (tokw + 1) w).prog = true := by
  have hlen : (s.withFetchWord (tokw + 1) w).prog.length = s.pc + 1 := by
    simp [State.withFetchWord, fetchProgram]
  have hpcw : (s.withFetchWord (tokw + 1) w).params.pcw = s.pc + 1 := rfl
  have hlt : s.pc + 1 < 2 ^ (s.pc + 1) := Nat.lt_two_pow_self
  rw [programFits, hlen, hpcw, decide_eq_true_eq]
  omega

theorem withFetchWord_tokensFit :
    tokensFit (s.withFetchWord (tokw + 1) w).params (s.withFetchWord (tokw + 1) w).prog = true := by
  have hpayload : payloadOf tokw w < 2 ^ tokw := payloadOf_lt tokw w
  simp [State.withFetchWord, fetchProgram, fetchParams, tokensFit, hpayload]

theorem withFetchWord_presentable : (s.withFetchWord (tokw + 1) w).edgeRefusal = none := by
  rw [State.edgeRefusal_eq_none_iff, State.presented_of_no_load rfl]
  exact ⟨rfl, rfl, withFetchWord_programFits s tokw w, withFetchWord_tokensFit s tokw w, rfl⟩

theorem withFetchWord_fetch :
    (s.withFetchWord (tokw + 1) w).fetch (s.withFetchWord (tokw + 1) w).pc = some (payloadOf tokw w) := by
  simp [State.withFetchWord, fetchProgram, State.fetch]

/-- Under the placed parameters the token is a branch exactly when the word's `BR` bit says so: its text is empty, and
so is the marker for `BR = 1` (R55). -/
theorem isBranch_fetchParams (ps : Params) (pc : Nat) :
    isBranch (fetchParams ps pc tokw w) (payloadOf tokw w) = flagOf tokw w := by
  cases h : flagOf tokw w <;> simp [isBranch, render, fetchParams, containsText, h]

end Placed

/-- Settles O45: the placed state fetches the word's payload, classified as its `BR` bit says. -/
theorem placedWordIsRunNext : Obligations.PlacedWordIsRunNext := by
  intro s tokw w hw
  obtain ⟨-, hstep⟩ := stepRunsTheFetchedInstruction (s.withFetchWord (tokw + 1) w) (payloadOf tokw w)
    (withFetchWord_presentable s tokw w) rfl rfl rfl rfl (withFetchWord_fetch s tokw w)
  refine ⟨_, ?_, hstep⟩
  have hclass : classify (s.withFetchWord (tokw + 1) w).params (payloadOf tokw w) =
      ⟨flagOf tokw w, payloadOf tokw w⟩ :=
    congrArg (Classified.mk · _) (isBranch_fetchParams tokw w s.params s.pc)
  rw [decodeTableWord, decodeClassified, Classified.ofWord_of_lt hw, decodeToken, hclass]
  rfl

/-! ### One edge, from the state before it -/

/-- At an edge of an unfaulted block without reset the engine is where its cycle takes it, whatever the ports do. -/
theorem sameEngine_cycleNext_edge (s : State) :
    sameEngine s.cycleNext (s.cycleNext.portsNext s.input).finishEdge :=
  sameEngine_portsNext s.input s.cycleNext

/-- Settles O3, by R112's three cases: the reset edge, the faulted block's edge, and the cycle with the ports. -/
theorem edgeActsOnTheStateBeforeIt : Obligations.EdgeActsOnTheStateBeforeIt := by
  intro s hp
  cases hrst : s.input.rst with
  | true =>
    refine ⟨_, step_of_reset hp hrst, fun _ => ⟨_, exec_reset _, ?_⟩, by simp, by simp⟩
    exact sameBlock_of_finishEdge (sameBlock_refl _)
  | false =>
    by_cases hf : s.fault = .none
    · refine ⟨_, step_of_unfaulted hp hrst hf, by simp, fun _ hfault => absurd hf hfault, fun _ _ => ?_⟩
      refine ⟨⟨_, exec_cycle s, sameEngine_cycleNext_edge s⟩, ?_, fun i => ?_, ?_, ?_⟩
      · rw [State.finishEdge_fault, State.portsNext_fault, State.cycleNext_fault, hf]
      · rw [State.finishEdge_readReg, State.portsNext_readReg, State.cycleNext_readReg]
      · simp
      · simp
    · obtain ⟨t, hstep, hsame⟩ := step_sameBlock_of_faulted hp hrst hf
      exact ⟨t, hstep, by simp, fun _ _ => hsame, fun _ hnone => absurd hnone hf⟩

/-- Settles O11: an enabled engine makes the cycle of the token at `PC`; a disabled one is halted or faulted, and its
edge is the ports alone or nothing. -/
theorem stepCyclesExactlyWhenEnabled : Obligations.StepCyclesExactlyWhenEnabled := by
  intro s hp hrst
  by_cases hf : s.fault = .none
  · have hsame := sameEngine_cycleNext_edge s
    refine ⟨_, step_of_unfaulted hp hrst hf, fun ⟨_, hrun⟩ => ?_, fun hoff => ?_⟩
    · have htok := State.fetch_of_running hrun
      rw [State.cycleNext_eq_setEngine hf htok] at hsame ⊢
      obtain ⟨hpc, hcount, hstages, hbt⟩ := hsame
      exact ⟨_, htok, hpc, hcount, hstages, hbt⟩
    · rwa [State.cycleNext_of_disabled (s.cycleEnabled_eq_false_iff.mpr hoff)] at hsame ⊢
  · exact ⟨_, step_of_faulted hp hrst hf, fun ⟨hnone, _⟩ => absurd hnone hf, fun _ => ⟨rfl, rfl, rfl, rfl⟩⟩

/-! ### The program -/

/-- An edge without reset keeps the program (R43). -/
theorem step_prog_of_no_reset {s t : State} (h : step s = .next t) (hrst : s.input.rst = false) : t.prog = s.prog := by
  obtain ⟨-, ⟨hreset, -⟩ | ⟨-, -, rfl⟩ | ⟨-, -, rfl⟩⟩ := step_cases h
  · exact absurd hreset (by simp [hrst])
  · exact s.finishEdge_prog
  · rw [State.finishEdge_prog, State.portsNext_prog, State.cycleNext_prog]

/-- Every edge keeps the parameters (R28). -/
theorem step_params {s t : State} (h : step s = .next t) : t.params = s.params := by
  obtain ⟨-, ⟨-, rfl⟩ | ⟨-, -, rfl⟩ | ⟨-, -, rfl⟩⟩ := step_cases h
  · rw [State.finishEdge_params, State.applyReset_params, State.presented_params]
  · exact s.finishEdge_params
  · rw [State.finishEdge_params, State.portsNext_params, State.cycleNext_params]

/-- Settles O39: what an instruction and an edge fetch is read from the program they keep. -/
theorem programIsImmutable : Obligations.ProgramIsImmutable := by
  refine ⟨fun i s t a h => ?_, fun s t a h hrst => ?_, fun s t h => step_params h⟩
  · obtain ⟨u, hu, hprog⟩ := exec_next_prog i s
    obtain rfl : u = t := Host.Outcome.next.inj (hu.symm.trans h)
    rw [State.fetch, State.fetch, hprog]
  · rw [State.fetch, State.fetch, step_prog_of_no_reset h hrst]

end Sys2Proof.Machine
end

section
/-! PROOFS. The invariant of the reachable states (`spec/10_state.md` sections 2 to 5): each part of an edge keeps it,
and so does the edge; and the number of slots it says are occupied (R134). -/

namespace Sys2Proof.Machine

open Sys2Proof.Safety

/-! ### The occupancy (R19) -/

/-- The slots before place `m` hold what R19 says: those that the cycles since some earlier state have filled. -/
def OccupancyBelow (m : Nat) (s : State) : Prop :=
  ∀ j : StageName, place j < m → s.stages.get j = expectedSlot s.prog s.pc (place j)

theorem place_lt_five (j : StageName) : place j < 5 := by
  cases j <;> decide

/-- R19's occupancy is the one of all five places. -/
theorem occupancyOk_iff_below (s : State) : OccupancyOk s ↔ OccupancyBelow 5 s :=
  ⟨fun h j _ => h j, fun h j => h j (place_lt_five j)⟩

theorem occupancyBelow_mono {m n : Nat} {s : State} (hmn : m ≤ n) (h : OccupancyBelow n s) : OccupancyBelow m s :=
  fun j hj => h j (hj.trans_le hmn)

theorem expectedSlot_zero_cycles (prog : List Tok) (j : Nat) : expectedSlot prog 0 j = .empty := by
  simp [expectedSlot]

/-- The token of the last cycle is in IF. -/
theorem expectedSlot_succ_zero {prog : List Tok} {k : Nat} {tok : Tok} (h : prog[k]? = some tok) :
    expectedSlot prog (k + 1) 0 = .full tok := by
  simp [expectedSlot, h]

/-- One cycle later, one place later. -/
theorem expectedSlot_succ_succ (prog : List Tok) (k j : Nat) :
    expectedSlot prog (k + 1) (j + 1) = expectedSlot prog k j := by
  have hindex : k - (j + 1) = k - 1 - j := by omega
  simp [expectedSlot, hindex]

/-- A cycle fills one place more: the fetched token enters IF and every slot moves on (R59, R75). -/
theorem occupancyBelow_cycleNext {s : State} {m : Nat} {tok : Tok} (hf : s.fault = .none)
    (htok : s.fetch s.pc = some tok) (h : OccupancyBelow m s) : OccupancyBelow (m + 1) s.cycleNext := by
  rw [State.cycleNext_eq_setEngine hf htok]
  have hmoved : ∀ i : StageName, place i + 1 < m + 1 →
      s.stages.get i = expectedSlot s.prog (s.pc + 1) (place i + 1) := fun i hi => by
    rw [h i (Nat.lt_of_succ_lt_succ hi), expectedSlot_succ_succ]
  intro j hj
  cases j with
  | IF => exact (expectedSlot_succ_zero htok).symm
  | ID => exact hmoved .IF hj
  | EX => exact hmoved .ID hj
  | MEM => exact hmoved .EX hj
  | WB => exact hmoved .MEM hj

/-! ### Each part of an edge keeps the invariant -/

theorem inv_finishEdge {s : State} (h : Inv s) : Inv s.finishEdge where
  params := h.params
  program := h.program
  tokens := h.tokens
  count_eq := h.count_eq
  pc_le := h.pc_le
  bt_false := h.bt_false
  occupancy := h.occupancy
  regs := h.regs
  unloaded := h.unloaded

/-- Right after reset no slot is filled, whatever the program (R18, R19). -/
theorem occupancyOk_applyReset (s : State) : OccupancyOk s.applyReset :=
  fun j => (Stages.get_empty j).trans (expectedSlot_zero_cycles s.prog (place j)).symm

/-- The reset event establishes the invariant over any program that the host may present (R121). -/
theorem inv_applyReset {s : State} (hparams : paramsOk s.params = true) (hprogram : programFits s.params s.prog = true)
    (htokens : tokensFit s.params s.prog = true) (hunloaded : s.loaded = false → s.prog = []) : Inv s.applyReset where
  params := hparams
  program := hprogram
  tokens := htokens
  count_eq := rfl
  pc_le := Nat.zero_le _
  bt_false := rfl
  occupancy := occupancyOk_applyReset s
  regs := regsOk_applyReset hparams
  unloaded := hunloaded

/-- An enabled cycle keeps the invariant, a disabled one keeps the state. -/
theorem inv_cycleNext {s : State} (h : Inv s) : Inv s.cycleNext := by
  by_cases hen : s.fault = .none ∧ s.pc < s.prog.length
  · obtain ⟨hf, hpc⟩ := hen
    have htok := State.fetch_of_running hpc
    have hocc : OccupancyOk s.cycleNext := (occupancyOk_iff_below _).mpr <|
      occupancyBelow_mono (Nat.le_succ 5) <|
        occupancyBelow_cycleNext hf htok ((occupancyOk_iff_below s).mp h.occupancy)
    rw [State.cycleNext_eq_setEngine hf htok] at hocc ⊢
    exact
      { params := h.params
        program := h.program
        tokens := h.tokens
        count_eq := congrArg (· + 1) h.count_eq
        pc_le := hpc
        bt_false := by simp [h.bt_false]
        occupancy := hocc
        regs := h.regs
        unloaded := h.unloaded }
  · rwa [State.cycleNext_of_disabled (s.cycleEnabled_eq_false_iff.mpr hen)]

/-- What the host presents on `rf_wdata` at a performed write fits `XLEN` bits (R29, R86). -/
theorem fitsSigned_of_writeDataFits {ps : Params} {e : EdgeInput} (h : writeDataFits ps e = true)
    (hrst : e.rst = false) (hwe : e.rfWe = true) : fitsSigned ps.xlen e.rfWdata = true := by
  simpa [writeDataFits, hrst, hwe] using h

/-- The ports keep the invariant: a register holds what it held or a value that fits. -/
theorem inv_portsNext {e : EdgeInput} {s : State} (hrst : e.rst = false) (hdata : writeDataFits s.params e = true)
    (h : Inv s) : Inv (s.portsNext e) where
  params := by simpa using h.params
  program := by simpa using h.program
  tokens := by simpa using h.tokens
  count_eq := by simpa using h.count_eq
  pc_le := by simpa using h.pc_le
  bt_false := by simpa using h.bt_false
  occupancy := fun j => by simpa using h.occupancy j
  regs := fun i => by
    rw [State.portsNext_params, State.portsNext_readReg]
    split
    next hwrite =>
      obtain ⟨-, -, hwe, -⟩ := hwrite
      exact fitsSigned_of_writeDataFits hdata hrst hwe
    next => exact h.regs i
  unloaded := by simpa using h.unloaded

/-- A program presented is loaded, so that an unloaded block still has none. -/
theorem State.presented_unloaded {s : State} (h : s.loaded = false → s.prog = []) :
    s.presented.loaded = false → s.presented.prog = [] := by
  obtain ⟨prog, hload⟩ | hnone := s.presented_cases
  · simp [hload]
  · rwa [hnone]

/-- Settles O22, by the three cases of an edge, each a composition of parts that keep the invariant. -/
theorem stepKeepsTheInvariant : Obligations.StepKeepsTheInvariant := by
  intro s t h hstep
  obtain ⟨hp, hcases⟩ := step_cases hstep
  obtain ⟨-, -, hprogram, htokens, hdata⟩ := s.edgeRefusal_eq_none_iff.mp hp
  obtain ⟨-, rfl⟩ | ⟨-, -, rfl⟩ | ⟨hrst, -, rfl⟩ := hcases
  · rw [← s.presented_params] at hprogram htokens
    exact inv_finishEdge <|
      inv_applyReset (by simpa using h.params) hprogram htokens (State.presented_unloaded h.unloaded)
  · exact inv_finishEdge h
  · rw [← s.cycleNext_params] at hdata
    exact inv_finishEdge (inv_portsNext hrst hdata (inv_cycleNext h))

/-! ### The invariant at reset -/

/-- The state after reset is the one that the edge numbered 0 leaves. -/
theorem State.reset_eq_edge : State.reset = ({ State.reset with edges := 0 } : State).applyReset.finishEdge := rfl

/-- The chip's own parameters are within R4's bounds. -/
theorem paramsOk_config : paramsOk Config.params = true := by
  simp [paramsOk, Config.params]

/-- Settles O21: the state after reset is left by a reset event with the empty program, which fits every bound. -/
theorem invariantHoldsAtReset : Obligations.InvariantHoldsAtReset := by
  rw [Obligations.InvariantHoldsAtReset, State.reset_eq_edge]
  exact inv_finishEdge <|
    inv_applyReset paramsOk_config (decide_eq_true (Nat.zero_le _)) rfl (fun _ => rfl)

/-! ### The number of occupied slots -/

/-- After `k` cycles of a program exactly the first `k` places are occupied (R19). -/
theorem expectedSlot_ne_empty_iff {prog : List Tok} {k : Nat} (hk : k ≤ prog.length) (j : Nat) :
    expectedSlot prog k j ≠ .empty ↔ j < k := by
  by_cases hj : j < k
  · have hin : k - 1 - j < prog.length := by omega
    simp [expectedSlot, hj, List.getElem?_eq_getElem hin]
  · simp [expectedSlot, hj]

/-- Of the five places, `min n 5` are below `n`. -/
theorem length_filter_place_lt (n : Nat) :
    (StageName.all.filter fun j => decide (place j < n)).length = min n 5 := by
  match n with
  | 0 | 1 | 2 | 3 | 4 => rfl
  | n + 5 =>
    have hall : ∀ j : StageName, place j < n + 5 := fun j => (place_lt_five j).trans_le (Nat.le_add_left 5 n)
    simp [hall, StageName.all]

/-- Settles O23: a slot is occupied exactly when its place is below `COUNT`. -/
theorem occupiedSlotsAreMinCountFive : Obligations.OccupiedSlotsAreMinCountFive := by
  intro s h
  have hslot : ∀ j : StageName, s.stages.get j ≠ .empty ↔ place j < s.count := fun j => by
    rw [h.occupancy j, h.count_eq]
    exact expectedSlot_ne_empty_iff h.pc_le (place j)
  calc occupied s.stages
      = (StageName.all.filter fun j => decide (place j < s.count)).length := by simp only [occupied, hslot]
    _ = min s.count 5 := length_filter_place_lt s.count

end Sys2Proof.Machine
end

section
/-! PROOFS. Reset (`spec/70_reset_and_hazards.md`): the state it leaves (R121, R122), and what a host that holds it sees
(R102). -/

namespace Sys2Proof.Machine

open Sys2Proof.Safety

/-! ### No run -/

/-- With no program loaded there is no run to end (R102). -/
theorem State.ended_of_unloaded {s : State} (h : s.loaded = false) : s.ended = false := by
  simp [State.ended, State.inRun, h]

/-- While reset is held and nothing has been fetched since the last one there is no run to end (R102). -/
theorem State.ended_of_held {s : State} (hrst : s.input.rst = true) (hpc : s.pc = 0) : s.ended = false := by
  simp [State.ended, State.inRun, hrst, hpc]

/-- A reset edge emits no report (R96). -/
theorem reportOf_of_reset {s : State} (h : s.input.rst = true) (t : State) : reportOf s t = none := by
  simp [reportOf, State.cycles, h]

/-! ### The reset state -/

/-- Settles O24: each element as the reset event leaves it; with no program loaded there is no run. -/
theorem resetStateIsAsTheSpecSays : Obligations.ResetStateIsAsTheSpecSays := by
  have hended : State.reset.ended = false := State.ended_of_unloaded rfl
  exact ⟨rfl, rfl, Stages.get_empty, rfl, rfl, State.readReg_zero _, rfl, hended,
    State.finalCount_of_not_ended hended⟩

/-- Settles O25: the fields after the reset event. -/
theorem resetRuns : Obligations.ResetRuns := fun s =>
  ⟨_, exec_reset s, rfl, rfl, Stages.get_empty, rfl, rfl, State.readReg_zero _, fun _ => rfl, rfl, rfl, rfl⟩

/-- Settles O26: the reset edge is the reset event on the program presented, after which the edge ends. -/
theorem resetEdgeTakesTheResetState : Obligations.ResetEdgeTakesTheResetState := by
  intro s hp hrst hparams
  have hparams' : paramsOk s.presented.params = true := by rwa [State.presented_params]
  refine ⟨_, step_of_reset hp hrst, rfl, rfl, Stages.get_empty, rfl, rfl, State.readReg_zero _, fun i => ?_,
    s.presented_params, rfl, congrArg List.tail s.presented_inputs⟩
  rw [State.finishEdge_params, State.finishEdge_readReg]
  exact regsOk_applyReset hparams' i

/-! ### Held reset -/

/-- A host that has loaded no program, and from here on only holds reset. -/
structure HeldUnloaded (s : State) : Prop where
  loaded : s.loaded = false
  prog : s.prog = []
  host : ∀ e ∈ s.inputs, e.rst = true ∧ e.load = none

/-- Such a host drives reset and presents no program in the current cycle, be it listed or not. -/
theorem HeldUnloaded.input {s : State} (h : HeldUnloaded s) : s.input.rst = true ∧ s.input.load = none := by
  cases hi : s.inputs with
  | nil => simp [State.input, hi, h.loaded, EdgeInput.held]
  | cons e l => simpa [State.input, hi] using h.host e (by simp [hi])

/-- Its edge is a reset edge, after which the host is such a one still. -/
theorem HeldUnloaded.step {s : State} (h : HeldUnloaded s) :
    step s = .next s.applyReset.finishEdge ∧ HeldUnloaded s.applyReset.finishEdge := by
  obtain ⟨hrst, hload⟩ := h.input
  have hpresented : s.presented = s := State.presented_of_no_load hload
  have hp : s.edgeRefusal = none := s.edgeRefusal_eq_none_iff.mpr
    ⟨by simp [loadAllowed, hrst], by simp [releaseAllowed, hrst], by simp [hpresented, h.prog, programFits],
      by simp [hpresented, h.prog, tokensFit], by simp [writeDataFits, hrst]⟩
  have hstep := step_of_reset hp hrst
  rw [hpresented] at hstep
  exact ⟨hstep, h.loaded, h.prog, fun e he => h.host e (List.mem_of_mem_tail he)⟩

/-- Any number of its edges emits no report and leaves such a host. -/
theorem HeldUnloaded.run {s : State} (h : HeldUnloaded s) (k : Nat) :
    trace k s = [] ∧ ∃ t, run k s = .next t ∧ HeldUnloaded t := by
  induction k generalizing s with
  | zero => exact ⟨rfl, s, rfl, h⟩
  | succ k ih =>
    obtain ⟨hrst, -⟩ := h.input
    obtain ⟨hstep, hheld⟩ := h.step
    obtain ⟨htrace, t, hrun, ht⟩ := ih hheld
    rw [trace_succ_of_step hstep, reportOf_of_reset hrst, run_succ_of_step hstep]
    exact ⟨htrace, t, hrun, ht⟩

/-- Settles O52: a reset edge by its inversion, any number of them by what the host keeps. -/
theorem heldResetProducesNothing : Obligations.HeldResetProducesNothing := by
  refine ⟨fun s t h hrst hheld => ?_, fun k s hloaded hprog hhost => ?_⟩
  · obtain ⟨-, ⟨-, rfl⟩ | ⟨hno, -⟩ | ⟨hno, -⟩⟩ := step_cases h
    · have hended := State.ended_of_held hheld rfl
      exact ⟨rfl, rfl, reportOf_of_reset hrst _, State.finalCount_of_not_ended hended, hended, rfl⟩
    · exact absurd hrst (by simp [hno])
    · exact absurd hrst (by simp [hno])
  · obtain ⟨htrace, t, hrun, ht⟩ := HeldUnloaded.run ⟨hloaded, hprog, hhost⟩ k
    have hended := State.ended_of_unloaded ht.loaded
    exact ⟨htrace, t, hrun, ht.loaded, State.finalCount_of_not_ended hended, hended⟩

end Sys2Proof.Machine
end

section
/-! PROOFS. The ports beside the cycle (`spec/42_register_file.md` sections 3 and 4, `spec/60_exceptions.md` section 1):
a write and the read after it, the faulted block's ports, where a fault comes from, the output ports, and the order of a
cycle and a port operation. -/

namespace Sys2Proof.Machine

open Sys2Proof.Safety

/-- Settles O29: the write of a register, then the rule for a read after a write. -/
theorem writeThenReadReturnsTheValue : Obligations.WriteThenReadReturnsTheValue := by
  intro s i j v hf hi
  refine ⟨_, exec_rfWrite_fin i v hf, exec_rfRead_fin j _, ?_⟩
  simp [State.readReg_writeReg, hi]

/-- Settles O35: the faulted block's read, write and read port. -/
theorem faultedPortsDoNothing : Obligations.FaultedPortsDoNothing := fun s index v hf =>
  ⟨exec_rfRead_faulted index s hf, exec_rfWrite_faulted index v s hf, s.portRead_fin⟩

/-- Settles O38: of the three edges only the one with ports can record a fault, and the ports say when (R89). -/
theorem faultsComeFromBadIndicesOnly : Obligations.FaultsComeFromBadIndicesOnly := by
  intro s t hf h ht
  obtain ⟨-, ⟨-, rfl⟩ | ⟨-, hfault, -⟩ | ⟨hrst, -, rfl⟩⟩ := step_cases h
  · exact absurd s.presented.applyReset_fault ht
  · exact absurd hf hfault
  · refine ⟨hrst, ?_⟩
    rw [State.finishEdge_fault, State.portsNext_fault, State.cycleNext_fault] at ht ⊢
    cases hw : badWrite s.input with
    | true => simp
    | false =>
      cases hr : badRead s.input with
      | true => simp
      | false => simp [hw, hr, hf] at ht

/-- The cause codes of R105. -/
theorem FaultCause.code_eq (c : FaultCause) :
    c.code = (match c with | .none => 0 | .regReadIndex => 1 | .regWriteIndex => 2) := by
  cases c <;> rfl

/-- Settles O50: each port by the element it shows. -/
theorem outputPortsShowTheState : Obligations.OutputPortsShowTheState := fun s =>
  ⟨rfl, rfl, rfl, rfl, s.running_iff, s.halted_iff, rfl, s.faulted_iff, s.fault.code_eq,
    fun i hi => (congrArg s.portRead hi).trans (s.portRead_fin i)⟩

/-! ### A cycle and a port operation -/

/-- A write is a replacement of the register file. -/
theorem State.writeReg_eq_withRegs (s : State) (i : Fin 32) (v : Value) :
    s.writeReg i v = withRegs s (if i = 0 then s.regs else s.regs.set i v) := by
  unfold State.writeReg
  split <;> rfl

theorem State.cycleNext_writeReg (s : State) (i : Fin 32) (v : Value) :
    (s.writeReg i v).cycleNext = s.cycleNext.writeReg i v := by
  rw [State.writeReg_eq_withRegs, State.writeReg_eq_withRegs, State.cycleNext_withRegs, State.cycleNext_regs]

/-- Two operations that answer next states answer the second one's. -/
theorem runOps_pair {i j : Instr} {s t u : State} (hi : exec i s = .next t) (hj : exec j t = .next u) :
    runOps [i, j] s = .next u := by
  rw [runOps_cons_next hi, runOps_cons_next hj, runOps]

/-- Settles O34: both orders end in the cycle's state with the register written, and a read in range writes nothing. -/
theorem cycleCommutesWithPortOperations : Obligations.CycleCommutesWithPortOperations := by
  intro s i v hf
  constructor
  · calc runOps [.cycle, .rfWrite ((i : Nat) : Int) v] s
        = .next (s.cycleNext.writeReg i v) :=
          runOps_pair (exec_cycle s) (exec_rfWrite_fin i v (s.cycleNext_fault.trans hf))
      _ = .next (s.writeReg i v).cycleNext := congrArg _ (s.cycleNext_writeReg i v).symm
      _ = runOps [.rfWrite ((i : Nat) : Int) v, .cycle] s :=
          (runOps_pair (exec_rfWrite_fin i v hf) (exec_cycle _)).symm
  · calc runOps [.cycle, .rfRead ((i : Nat) : Int)] s
        = .next s.cycleNext := runOps_pair (exec_cycle s) (exec_rfRead_fin i _)
      _ = runOps [.rfRead ((i : Nat) : Int), .cycle] s :=
          (runOps_pair (exec_rfRead_fin i s) (exec_cycle s)).symm

end Sys2Proof.Machine
end

section
/-! PROOFS. The report of an edge (`spec/43_stage_report.md` section 2): what a cycle reports (R94), and which edges
report nothing (R96, R107). -/

namespace Sys2Proof.Machine

open Sys2Proof.Safety

theorem reportOf_of_disabled {s : State} (h : s.cycleEnabled = false) (t : State) : reportOf s t = none := by
  simp [reportOf, State.cycles, h]

/-- A cycle that leaves an unfaulted state reports that state (R94). -/
theorem reportOf_of_cycle {s t : State} (hrst : s.input.rst = false) (hen : s.cycleEnabled = true)
    (ht : t.fault = .none) : reportOf s t = some t.report := by
  simp [reportOf, State.cycles, hrst, hen, t.faulted_eq_false_iff.mpr ht]

/-- A faulted state is never reported (R107). -/
theorem reportOf_into_faulted {t : State} (ht : t.fault ≠ .none) (s : State) : reportOf s t = none := by
  simp [reportOf, t.faulted_iff.mpr ht]

/-- Settles O48: the reset edge, and the two ways in which no cycle is enabled. -/
theorem noCycleNoReport : Obligations.NoCycleNoReport := by
  rintro s t (hrst | hhalt | hf)
  · exact reportOf_of_reset hrst t
  · exact reportOf_of_disabled (State.cycleEnabled_of_halted hhalt) t
  · exact reportOf_of_faulted hf t

/-- Settles O47, by whether the edge records a fault: the state left is faulted, or it is the one that the cycle
leaves and is reported. -/
theorem cycleEmitsItsReport : Obligations.CycleEmitsItsReport := by
  intro s tok hp hrst hf htok
  refine ⟨_, step_of_unfaulted hp hrst hf, ?_⟩
  split
  next hbad =>
    refine reportOf_into_faulted ?_ s
    rw [State.portsNext_of_badIndex hbad]
    cases badWrite s.input <;> simp
  next hgood =>
    obtain ⟨hr, hw⟩ : badRead s.input = false ∧ badWrite s.input = false := by simpa using hgood
    have hfault : (s.cycleNext.portsNext s.input).finishEdge.fault = .none := by
      simp [State.portsNext_fault, hw, hr, State.cycleNext_fault, hf]
    rw [reportOf_of_cycle hrst (State.cycleEnabled_of_fetch hf htok) hfault, State.report, State.finishEdge_pc,
      State.finishEdge_stages, State.portsNext_pc, State.portsNext_stages, State.cycleNext_eq_setEngine hf htok]
    rfl

end Sys2Proof.Machine
end

section
/-! PROOFS. Noninterference over runs: what neither the register file's contents (R40, R90) nor the branch marker (R55,
R66) can show. Both are relations of states that every part of an edge keeps; that a run and its trace then keep them is
proved once for any such relation. -/

namespace Sys2Proof.Machine

open Sys2Proof.Safety

/-! ### Relations that every edge keeps -/

/-- The two states agree in all that decides whether an edge is refused, what it selects and what it reports. -/
structure SameEdge (s s' : State) : Prop where
  inputs : s'.inputs = s.inputs
  loaded : s'.loaded = s.loaded
  prog : s'.prog = s.prog
  fault : s'.fault = s.fault
  engine : sameEngine s s'
  tokw : s'.params.tokw = s.params.tokw
  pcw : s'.params.pcw = s.params.pcw
  xlen : s'.params.xlen = s.params.xlen

/-- `R` relates states that agree at an edge, and each part of an edge keeps it. -/
structure KeptByParts (R : State → State → Prop) : Prop where
  same : ∀ {s s'}, R s s' → SameEdge s s'
  load : ∀ {s s'} (prog : List Tok), R s s' → R (s.loadProgram prog) (s'.loadProgram prog)
  reset : ∀ {s s'}, R s s' → R s.applyReset s'.applyReset
  cycle : ∀ {s s'}, R s s' → R s.cycleNext s'.cycleNext
  fault : ∀ {s s'} (cause : FaultCause), R s s' → R (s.setFault cause) (s'.setFault cause)
  write : ∀ {s s'} (i : Fin 32) (v : Value), R s s' → R (s.writeReg i v) (s'.writeReg i v)
  finish : ∀ {s s'}, R s s' → R s.finishEdge s'.finishEdge

theorem SameEdge.input {s s' : State} (h : SameEdge s s') : s'.input = s.input := by
  rw [State.input, State.input, h.inputs, h.loaded]

theorem SameEdge.presented_prog {s s' : State} (h : SameEdge s s') : s'.presented.prog = s.presented.prog := by
  cases hl : s.input.load with
  | some prog =>
    rw [State.presented_of_load hl, State.presented_of_load ((congrArg EdgeInput.load h.input).trans hl)]
    rfl
  | none =>
    rw [State.presented_of_no_load hl, State.presented_of_no_load ((congrArg EdgeInput.load h.input).trans hl)]
    exact h.prog

theorem SameEdge.edgeRefusal {s s' : State} (h : SameEdge s s') : s'.edgeRefusal = s.edgeRefusal := by
  have hprogram (prog : List Tok) : programFits s'.params prog = programFits s.params prog := by
    rw [programFits, programFits, h.pcw]
  have htokens (prog : List Tok) : tokensFit s'.params prog = tokensFit s.params prog := by
    rw [tokensFit, tokensFit, h.tokw]
  have hdata (e : EdgeInput) : writeDataFits s'.params e = writeDataFits s.params e := by
    rw [writeDataFits, writeDataFits, h.xlen]
  rw [State.edgeRefusal, State.edgeRefusal, hprogram, htokens, hdata, h.input, h.loaded, h.presented_prog]

theorem SameEdge.cycles {s s' : State} (h : SameEdge s s') : s'.cycles = s.cycles := by
  obtain ⟨hpc, -, -, -⟩ := h.engine
  simp only [State.cycles, State.cycleEnabled, State.faulted, State.running, h.input, h.fault, h.prog, hpc]

/-- Edges between states that agree report the same. -/
theorem SameEdge.reportOf {s s' t t' : State} (h : SameEdge s s') (ht : SameEdge t t') :
    reportOf s' t' = reportOf s t := by
  obtain ⟨hpc, -, hstages, -⟩ := ht.engine
  have hfaulted : t'.faulted = t.faulted := by rw [State.faulted, State.faulted, ht.fault]
  rw [Machine.reportOf, Machine.reportOf, State.report, State.report, h.cycles, hfaulted, hpc, hstages]

section Kept

variable {R : State → State → Prop} (hR : KeptByParts R)
include hR

theorem KeptByParts.presented {s s' : State} (h : R s s') : R s.presented s'.presented := by
  have hinput : s'.input.load = s.input.load := congrArg EdgeInput.load (hR.same h).input
  cases hl : s.input.load with
  | some prog =>
    rw [State.presented_of_load hl, State.presented_of_load (hinput.trans hl)]
    exact hR.load prog h
  | none =>
    rwa [State.presented_of_no_load hl, State.presented_of_no_load (hinput.trans hl)]

/-- What the ports do is one operation for the two states: a cause, one register's write, or nothing. -/
theorem KeptByParts.ports {s s' : State} (e : EdgeInput) (h : R s s') : R (s.portsNext e) (s'.portsNext e) := by
  by_cases hbad : badRead e = true ∨ badWrite e = true
  · rw [State.portsNext_of_badIndex hbad, State.portsNext_of_badIndex hbad]
    exact hR.fault _ h
  · obtain ⟨hr, hw⟩ : badRead e = false ∧ badWrite e = false := by simpa using hbad
    obtain ⟨hwe, hs⟩ | ⟨i, hwe, haddr, hs⟩ := State.portsNext_of_inRange hw hr s
    · have hs' : s'.portsNext e = s' := by simp [State.portsNext, hw, hr, hwe]
      rwa [hs, hs']
    · rw [hs, State.portsNext_of_write hr hwe haddr]
      exact hR.write i _ h

/-- An edge of one state is matched by an edge of the other, with the same report. -/
theorem KeptByParts.step {s s' t : State} (h : R s s') (hstep : step s = .next t) :
    ∃ t', step s' = .next t' ∧ R t t' ∧ reportOf s' t' = reportOf s t := by
  have hsame := hR.same h
  obtain ⟨hp, hcases⟩ := step_cases hstep
  rw [← hsame.edgeRefusal] at hp
  have hmatch : ∃ t', Machine.step s' = .next t' ∧ R t t' := by
    obtain ⟨hrst, rfl⟩ | ⟨hrst, hf, rfl⟩ | ⟨hrst, hf, rfl⟩ := hcases <;> rw [← hsame.input] at hrst
    · exact ⟨_, step_of_reset hp hrst, hR.finish (hR.reset (hR.presented h))⟩
    · rw [← hsame.fault] at hf
      exact ⟨_, step_of_faulted hp hrst hf, hR.finish h⟩
    · rw [← hsame.fault] at hf
      refine ⟨_, step_of_unfaulted hp hrst hf, hR.finish ?_⟩
      rw [hsame.input]
      exact hR.ports s.input (hR.cycle h)
  obtain ⟨t', hstep', ht⟩ := hmatch
  exact ⟨t', hstep', ht, hsame.reportOf (hR.same ht)⟩

/-- States so related have the same trace. -/
theorem KeptByParts.trace_eq (k : Nat) {s s' : State} (h : R s s') : trace k s' = trace k s := by
  induction k generalizing s s' with
  | zero => rfl
  | succ k ih =>
    cases hp : s.edgeRefusal with
    | some r =>
      have hp' : s'.edgeRefusal = some r := (hR.same h).edgeRefusal.trans hp
      rw [trace_of_stop (s := s) _ (by simp [step_of_refusal hp]),
        trace_of_stop (s := s') _ (by simp [step_of_refusal hp'])]
    | none =>
      obtain ⟨t, hstep⟩ := exists_step_of_presentable hp
      obtain ⟨t', hstep', ht, hreport⟩ := hR.step h hstep
      rw [trace_succ_of_step hstep, trace_succ_of_step hstep', hreport, ih ht]

/-- A run from one of two states so related is matched from the other. -/
theorem KeptByParts.run (k : Nat) {s s' t : State} (h : R s s') (hrun : run k s = .next t) :
    ∃ t', run k s' = .next t' ∧ R t t' := by
  induction k generalizing s s' with
  | zero =>
    obtain rfl : s = t := Host.Outcome.next.inj hrun
    exact ⟨s', rfl, h⟩
  | succ k ih =>
    cases hp : s.edgeRefusal with
    | some r => exact absurd hrun (run_of_stop k (by simp [step_of_refusal hp]))
    | none =>
      obtain ⟨u, hstep⟩ := exists_step_of_presentable hp
      obtain ⟨u', hstep', hu, -⟩ := hR.step h hstep
      rw [run_succ_of_step hstep] at hrun
      rw [run_succ_of_step hstep']
      exact ih hu hrun

end Kept

/-! ### The register file's contents -/

/-- `s'` is `s` but for the contents of the register file. -/
def EqUpToRegs (s s' : State) : Prop := ∃ regs, s' = withRegs s regs

theorem writeReg_eqUpToRegs (s : State) (regs : Vector Value 32) (i : Fin 32) (v : Value) :
    EqUpToRegs (s.writeReg i v) ((withRegs s regs).writeReg i v) := by
  rw [State.writeReg_eq_withRegs, State.writeReg_eq_withRegs]
  exact ⟨_, rfl⟩

theorem keptByParts_eqUpToRegs : KeptByParts EqUpToRegs where
  same := by rintro s _ ⟨regs, rfl⟩; exact ⟨rfl, rfl, rfl, rfl, ⟨rfl, rfl, rfl, rfl⟩, rfl, rfl, rfl⟩
  load := by rintro s _ prog ⟨regs, rfl⟩; exact ⟨regs, rfl⟩
  reset := by rintro s _ ⟨regs, rfl⟩; exact ⟨s.applyReset.regs, rfl⟩
  cycle := by rintro s _ ⟨regs, rfl⟩; exact ⟨regs, s.cycleNext_withRegs regs⟩
  fault := by rintro s _ cause ⟨regs, rfl⟩; exact ⟨regs, rfl⟩
  write := by rintro s _ i v ⟨regs, rfl⟩; exact writeReg_eqUpToRegs s regs i v
  finish := by rintro s _ ⟨regs, rfl⟩; exact ⟨regs, rfl⟩

/-- Settles O33: no part of an edge lets the contents of the register file reach another element. -/
theorem registerContentsNeverReachTheTrace : Obligations.RegisterContentsNeverReachTheTrace :=
  fun k _ regs => keptByParts_eqUpToRegs.trace_eq k ⟨regs, rfl⟩

/-! ### The branch marker -/

/-- `s'` is `s` under another branch marker, and no branch is recorded as taken. -/
def EqUpToMarker (marker : Text) (s s' : State) : Prop := s.bt = false ∧ s' = withMarker s marker

/-- From `BT = false` the cycle is the same for both classes of its token, so the marker decides nothing (R66). -/
theorem State.cycleNext_of_bt_false {s : State} {tok : Tok} (hbt : s.bt = false) (hf : s.fault = .none)
    (htok : s.fetch s.pc = some tok) :
    s.cycleNext = s.setEngine (s.pc + 1) (s.count + 1) (s.stages.shift (.full tok)) false := by
  rw [State.cycleNext_eq_setEngine hf htok, hbt, ite_self]

theorem cycleNext_eqUpToMarker {s : State} (hbt : s.bt = false) (marker : Text) :
    EqUpToMarker marker s.cycleNext (withMarker s marker).cycleNext := by
  by_cases hen : s.fault = .none ∧ s.pc < s.prog.length
  · obtain ⟨hf, hpc⟩ := hen
    have htok := State.fetch_of_running hpc
    have hother : (withMarker s marker).cycleNext = _ := State.cycleNext_of_bt_false hbt hf htok
    rw [State.cycleNext_of_bt_false hbt hf htok, hother]
    exact ⟨rfl, rfl⟩
  · have hoff := s.cycleEnabled_eq_false_iff.mpr hen
    have hother : (withMarker s marker).cycleNext = _ := State.cycleNext_of_disabled hoff
    rw [State.cycleNext_of_disabled hoff, hother]
    exact ⟨hbt, rfl⟩

theorem writeReg_eqUpToMarker {s : State} (hbt : s.bt = false) (marker : Text) (i : Fin 32) (v : Value) :
    EqUpToMarker marker (s.writeReg i v) ((withMarker s marker).writeReg i v) := by
  rw [State.writeReg_eq_withRegs, State.writeReg_eq_withRegs]
  exact ⟨hbt, rfl⟩

theorem keptByParts_eqUpToMarker (marker : Text) : KeptByParts (EqUpToMarker marker) where
  same := by rintro s _ ⟨-, rfl⟩; exact ⟨rfl, rfl, rfl, rfl, ⟨rfl, rfl, rfl, rfl⟩, rfl, rfl, rfl⟩
  load := by rintro s _ prog ⟨hbt, rfl⟩; exact ⟨hbt, rfl⟩
  reset := by rintro s _ ⟨-, rfl⟩; exact ⟨rfl, rfl⟩
  cycle := by rintro s _ ⟨hbt, rfl⟩; exact cycleNext_eqUpToMarker hbt marker
  fault := by rintro s _ cause ⟨hbt, rfl⟩; exact ⟨hbt, rfl⟩
  write := by rintro s _ i v ⟨hbt, rfl⟩; exact writeReg_eqUpToMarker hbt marker i v
  finish := by rintro s _ ⟨hbt, rfl⟩; exact ⟨hbt, rfl⟩

/-- Settles O15: no part of an edge lets the marker reach another element while `BT = false`, and each keeps it so. -/
theorem branchMarkerIsUnobservable : Obligations.BranchMarkerIsUnobservable := by
  intro k s marker hbt
  have hkept := keptByParts_eqUpToMarker marker
  refine ⟨hkept.trace_eq k ⟨hbt, rfl⟩, fun t hrun => ?_⟩
  obtain ⟨_, hrun', -, rfl⟩ := hkept.run k ⟨hbt, rfl⟩ hrun
  exact hrun'

end Sys2Proof.Machine
end

section
/-! PROOFS. Runs of a program (`spec/40_pipeline_cycle.md` section 5): how far any number of uninterrupted cycles lead,
what their reports show (R75, R94), the end of the run (R73, R97), and the run of a program booted from any state. -/

namespace Sys2Proof.Machine

open Sys2Proof.Safety

/-! ### One uninterrupted edge -/

/-- What an uninterrupting host drives in the current cycle, be it listed or not. -/
theorem uninterrupting_input {s : State} (h : Uninterrupted s) : uninterrupting s.params s.input = true := by
  cases hi : s.inputs with
  | nil => simp [State.input, hi, h.loaded, EdgeInput.idle, uninterrupting, writeDataFits, badRead, badWrite]
  | cons e l => simpa [State.input, hi] using h.host e (by simp [hi])

theorem uninterrupting_iff (ps : Params) (e : EdgeInput) :
    uninterrupting ps e = true ↔ e.rst = false ∧ e.load = none ∧ writeDataFits ps e = true ∧ badRead e = false ∧
      badWrite e = false := by
  simp [uninterrupting, and_assoc]

theorem presentable_of_uninterrupted {s : State} (h : Uninterrupted s) : s.edgeRefusal = none := by
  obtain ⟨-, hload, hdata, -, -⟩ := (uninterrupting_iff _ _).mp (uninterrupting_input h)
  rw [State.edgeRefusal_eq_none_iff, State.presented_of_no_load hload]
  exact ⟨by simp [loadAllowed, hload], by simp [releaseAllowed, h.loaded], h.program, h.tokens, hdata⟩

/-- `t` is where `k` cycles lead from `s` under a host that interrupts nothing: the program goes on from `PC + k`, `k`
places more are filled, and where the host is idle no register has changed. -/
structure CyclesTo (k : Nat) (s t : State) : Prop where
  run : run k s = .next t
  host : Uninterrupted t
  prog : t.prog = s.prog
  pc : t.pc = s.pc + k
  count : t.count = s.count + k
  occupancy : ∀ m, OccupancyBelow m s → OccupancyBelow (m + k) t
  idle : s.inputs = [] → t.inputs = [] ∧ t.regs = s.regs

theorem cyclesTo_zero {s : State} (h : Uninterrupted s) : CyclesTo 0 s s where
  run := rfl
  host := h
  prog := rfl
  pc := rfl
  count := rfl
  occupancy := fun _ hocc => hocc
  idle := fun hidle => ⟨hidle, rfl⟩

theorem cyclesTo_succ {k : Nat} {s t u : State} (hstep : step s = .next t) (hone : CyclesTo 1 s t)
    (h : CyclesTo k t u) : CyclesTo (k + 1) s u where
  run := (run_succ_of_step hstep k).trans h.run
  host := h.host
  prog := h.prog.trans hone.prog
  pc := by rw [h.pc, hone.pc, Nat.add_assoc, Nat.add_comm 1]
  count := by rw [h.count, hone.count, Nat.add_assoc, Nat.add_comm 1]
  occupancy := fun m hocc => by
    rw [Nat.add_comm k, ← Nat.add_assoc]
    exact h.occupancy (m + 1) (hone.occupancy m hocc)
  idle := fun hidle => by
    obtain ⟨hidle', hregs⟩ := hone.idle hidle
    obtain ⟨hidle'', hregs'⟩ := h.idle hidle'
    exact ⟨hidle'', hregs'.trans hregs⟩

/-- The occupancy is read from the engine and the program alone. -/
theorem occupancyBelow_of_sameEngine {m : Nat} {s t : State} (he : sameEngine s t) (hprog : t.prog = s.prog)
    (h : OccupancyBelow m s) : OccupancyBelow m t := by
  obtain ⟨hpc, -, hstages, -⟩ := he
  intro j hj
  rw [hpc, hstages, hprog]
  exact h j hj

/-- The ports of an uninterrupting host record no fault. -/
theorem portsNext_fault_of_uninterrupting {ps : Params} {e : EdgeInput} (h : uninterrupting ps e = true) (s : State) :
    (s.portsNext e).fault = s.fault := by
  obtain ⟨-, -, -, hr, hw⟩ := (uninterrupting_iff ps e).mp h
  simp [State.portsNext_fault, hr, hw]

/-- One edge of a running engine under such a host is one cycle, which is reported. -/
theorem exists_cyclesTo_one {s : State} (h : Uninterrupted s) (hpc : s.pc < s.prog.length) :
    ∃ t, step s = .next t ∧ reportOf s t = some t.report ∧ CyclesTo 1 s t := by
  have hinput := uninterrupting_input h
  obtain ⟨hrst, -, -, -, -⟩ := (uninterrupting_iff _ _).mp hinput
  have htok := State.fetch_of_running hpc
  have hen := State.cycleEnabled_of_fetch h.fault htok
  have hstep := step_of_unfaulted (presentable_of_uninterrupted h) hrst h.fault
  have hsame := sameEngine_cycleNext_edge s
  have hfault : (s.cycleNext.portsNext s.input).finishEdge.fault = .none := by
    rw [State.finishEdge_fault, portsNext_fault_of_uninterrupting hinput, State.cycleNext_fault, h.fault]
  have hprog : (s.cycleNext.portsNext s.input).finishEdge.prog = s.prog := by simp
  have hparams : (s.cycleNext.portsNext s.input).finishEdge.params = s.params := by simp
  refine ⟨_, hstep, reportOf_of_cycle hrst hen hfault, ?_⟩
  exact
    { run := run_succ_of_step hstep 0
      host :=
        { fault := hfault
          loaded := by simpa using h.loaded
          host := fun e he => by
            rw [hparams]
            exact h.host e (List.mem_of_mem_tail (by simpa using he))
          program := by rw [hparams, hprog]; exact h.program
          tokens := by rw [hparams, hprog]; exact h.tokens }
      prog := hprog
      pc := by simp [State.cycleNext_eq_setEngine h.fault htok]
      count := by simp [State.cycleNext_eq_setEngine h.fault htok]
      occupancy := fun m hocc =>
        occupancyBelow_of_sameEngine hsame (by simp) (occupancyBelow_cycleNext h.fault htok hocc)
      idle := fun hidle => by
        have hports : s.input = EdgeInput.idle := by simp [State.input, hidle, h.loaded]
        simp [hidle, hports, State.portsNext_of_no_strobe, EdgeInput.idle] }

/-! ### Any number of them -/

/-- As many cycles as the program has tokens left, each with its report. -/
theorem exists_cyclesTo {s : State} (h : Uninterrupted s) (k : Nat) (hk : s.pc + k ≤ s.prog.length) :
    (trace k s).length = k ∧ ∃ t, CyclesTo k s t := by
  induction k generalizing s with
  | zero => exact ⟨rfl, s, cyclesTo_zero h⟩
  | succ k ih =>
    obtain ⟨t, hstep, hreport, hone⟩ := exists_cyclesTo_one h (by omega)
    obtain ⟨hlength, u, hrest⟩ := ih hone.host (by rw [hone.pc, hone.prog]; omega)
    refine ⟨?_, u, cyclesTo_succ hstep hone hrest⟩
    simp [trace_succ_of_step hstep, hreport, hlength]

/-- Report number `i`, counted from 0, is the report of the state that `i + 1` cycles lead to. -/
theorem trace_getElem_of_uninterrupted {s : State} (h : Uninterrupted s) (n : Nat) (hn : s.pc + n ≤ s.prog.length)
    (i : Nat) (hi : i < n) : ∃ t, (trace n s)[i]? = some t.report ∧ CyclesTo (i + 1) s t := by
  induction n generalizing s i with
  | zero => exact absurd hi i.not_lt_zero
  | succ n ih =>
    obtain ⟨t, hstep, hreport, hone⟩ := exists_cyclesTo_one h (by omega)
    have htrace : trace (n + 1) s = t.report :: trace n t := by simp [trace_succ_of_step hstep, hreport]
    cases i with
    | zero => exact ⟨t, by simp [htrace], hone⟩
    | succ i =>
      obtain ⟨u, hget, hrest⟩ := ih hone.host (by rw [hone.pc, hone.prog]; omega) i (Nat.lt_of_succ_lt_succ hi)
      exact ⟨u, by simpa [htrace] using hget, cyclesTo_succ hstep hone hrest⟩

/-- The token fetched `j` cycles before the last is in place `j` (R19). -/
theorem expectedSlot_of_fetched {prog : List Tok} {k : Nat} {tok : Tok} (h : prog[k]? = some tok) (j : Nat) :
    expectedSlot prog (k + (j + 1)) j = .full tok := by
  induction j with
  | zero => exact expectedSlot_succ_zero h
  | succ j ih => rw [← Nat.add_assoc, expectedSlot_succ_succ, ih]

/-- Settles O16: of the `j + 1` cycles the first fetches the token, and they fill the places up to `j`. -/
theorem tokenReachesEachStageInTurn : Obligations.TokenReachesEachStageInTurn := by
  intro s tok j h htok hlen
  obtain ⟨-, t, ht⟩ := exists_cyclesTo h (place j + 1) hlen
  refine ⟨t, ht.run, ?_⟩
  have hnone : OccupancyBelow 0 s := fun _ hj => absurd hj (Nat.not_lt_zero _)
  calc t.stages.get j
      = expectedSlot t.prog t.pc (place j) := ht.occupancy 0 hnone j (by omega)
    _ = expectedSlot s.prog (s.pc + (place j + 1)) (place j) := by rw [ht.prog, ht.pc]
    _ = .full tok := expectedSlot_of_fetched htok (place j)

/-! ### The end of a run -/

/-- An uninterrupted run that has fetched the whole program is at its end (R98). -/
theorem ended_of_uninterrupted {s : State} (h : Uninterrupted s) (hpc : s.prog.length ≤ s.pc) : s.ended = true := by
  obtain ⟨hrst, -, -, -, -⟩ := (uninterrupting_iff _ _).mp (uninterrupting_input h)
  simp [State.ended, State.inRun, h.loaded, hrst, s.halted_iff.mpr hpc, s.faulted_eq_false_iff.mpr h.fault]

/-- An idle host interrupts nothing. -/
theorem uninterrupted_of_undisturbed {s : State} (h : Undisturbed s) : Uninterrupted s where
  fault := h.fault
  loaded := h.loaded
  host := by simp [show s.inputs = [] from h.idle]
  program := h.program
  tokens := h.tokens

/-- Settles O17: one cycle for each token left ends the run, and the idle host has written nothing. -/
theorem undisturbedRunHalts : Obligations.UndisturbedRunHalts := by
  intro s h hpc
  obtain ⟨hlength, t, ht⟩ := exists_cyclesTo (uninterrupted_of_undisturbed h) (s.prog.length - s.pc) (by omega)
  have hend : t.pc = s.prog.length := by rw [ht.pc]; omega
  obtain ⟨-, hregs⟩ := ht.idle h.idle
  exact ⟨t, ht.run, hend, ht.count, ended_of_uninterrupted ht.host (by rw [ht.prog, hend]), ht.prog, hregs, hlength⟩

/-! ### A booted program -/

/-- The state in which `prog` is about to run: just reset, the host idle. -/
structure Booted (prog : List Tok) (b : State) : Prop where
  host : Uninterrupted b
  prog : b.prog = prog
  pc : b.pc = 0
  count : b.count = 0
  occupancy : OccupancyOk b

/-- The reset edge that presents a program boots it, whatever the state, and reports nothing (R101, R121). -/
theorem exists_booted {s : State} {prog : List Tok} (hinputs : s.inputs = [{ rst := true, load := some prog }])
    (hprogram : programFits s.params prog = true) (htokens : tokensFit s.params prog = true) :
    ∃ b, step s = .next b ∧ reportOf s b = none ∧ Booted prog b := by
  have hinput : s.input = { rst := true, load := some prog } := by simp [State.input, hinputs]
  have hload : s.presented = s.loadProgram prog := State.presented_of_load (by rw [hinput])
  have hrst : s.input.rst = true := by rw [hinput]
  have hp : s.edgeRefusal = none := by
    rw [State.edgeRefusal_eq_none_iff, hload]
    exact ⟨by simp [loadAllowed, hrst], by simp [releaseAllowed, hrst], hprogram, htokens,
      by simp [writeDataFits, hrst]⟩
  have hstep := step_of_reset hp hrst
  rw [hload] at hstep
  have hidle : (s.loadProgram prog).applyReset.finishEdge.inputs = [] := by simp [hinputs]
  refine ⟨_, hstep, reportOf_of_reset hrst _, ?_⟩
  exact
    { host := uninterrupted_of_undisturbed
        { fault := rfl, loaded := rfl, idle := hidle, program := hprogram, tokens := htokens }
      prog := rfl
      pc := rfl
      count := rfl
      occupancy := occupancyOk_applyReset (s.loadProgram prog) }

/-- After `k` cycles of a booted program every slot holds what R19 says. -/
theorem occupancy_of_booted {prog : List Tok} {k : Nat} {b t : State} (hb : Booted prog b) (ht : CyclesTo k b t)
    (j : StageName) : t.stages.get j = expectedSlot prog k (place j) := by
  have hbelow := ht.occupancy 5 ((occupancyOk_iff_below b).mp hb.occupancy)
  have hocc := (occupancyOk_iff_below t).mpr (occupancyBelow_mono (Nat.le_add_right 5 k) hbelow)
  rw [hocc j, ht.prog, ht.pc, hb.prog, hb.pc, Nat.zero_add]

/-- Settles O18: the boot edge, then one cycle for each token. -/
theorem bootedProgramRunsToItsCount : Obligations.BootedProgramRunsToItsCount := by
  intro s prog hinputs hprogram htokens
  obtain ⟨b, hstep, hreport, hb⟩ := exists_booted hinputs hprogram htokens
  obtain ⟨hlength, t, ht⟩ := exists_cyclesTo hb.host prog.length (by simp [hb.pc, hb.prog])
  have hended : t.ended = true :=
    ended_of_uninterrupted ht.host (by simp [ht.prog, ht.pc, hb.prog, hb.pc])
  have hcount : t.count = prog.length := by rw [ht.count, hb.count, Nat.zero_add]
  refine ⟨t, (run_succ_of_step hstep _).trans ht.run, hended, ?_, ?_, occupancy_of_booted hb ht⟩
  · rw [State.finalCount, if_pos hended, hcount]
  · rw [trace_succ_of_step hstep, hreport]
    exact hlength

/-- Settles O19: report `k` is of the state that `k` cycles of the booted program lead to. -/
theorem bootedTraceShowsTheOccupancy : Obligations.BootedTraceShowsTheOccupancy := by
  intro s prog k hinputs hprogram htokens hk hkn
  obtain ⟨b, hstep, hreport, hb⟩ := exists_booted hinputs hprogram htokens
  obtain ⟨t, hget, ht⟩ :=
    trace_getElem_of_uninterrupted hb.host prog.length (by simp [hb.pc, hb.prog]) (k - 1) (by omega)
  rw [Nat.sub_add_cancel hk] at ht
  refine ⟨t.report, ?_, ?_, occupancy_of_booted hb ht⟩
  · rw [trace_succ_of_step hstep, hreport]
    exact hget
  · exact ht.pc.trans (by rw [hb.pc, Nat.zero_add])

end Sys2Proof.Machine
end
